-- ==== Sys2Proof/Word.lean ====
section
/-! DEFINITION. The word types of the block (00_scope R11: every value is unsigned, bit 0 is the least significant). -/

namespace Sys2Proof

/-- A byte, 0..255 (R11): a table entry, a nonce byte, a symbol, an 8-bit address. -/
abbrev Byte := BitVec 8

/-- A command word `CMD64` (R60). -/
abbrev Cmd := BitVec 64

/-- The 40-bit `IMM` field: the seed of LFSR_INIT, the key of BEGIN_SESSION (R61, R62). -/
abbrev Imm := BitVec 40

end Sys2Proof
end

