-- ==== Sys2Proof/Syntax.lean ====
section
/-! DEFINITION. The 14 commands (30_encoding R66), why a word is no command (R67, R68), and the assembler's
source lines (R72, R73). -/

namespace Sys2Proof

/-- The register a command of the LFSR family names (R62 `SEL`, R100). -/
inductive Reg where
  /-- SEL = 0. -/
  | r17
  /-- SEL = 1. -/
  | r32
deriving DecidableEq, Repr

/-- The width `w` of R100's table. -/
abbrev Reg.width : Reg → Nat
  | .r17 => 17
  | .r32 => 32

/-- The commands, one constructor per row of R66. -/
inductive Instr where
  | lfsrInit (sel : Reg) (seed : Imm)
  | lfsrStepFwd (sel : Reg)
  | lfsrStepBwd (sel : Reg)
  | lfsrNextByte (sel : Reg)
  | lfsrPrevByte (sel : Reg)
  | lfsrRead (sel : Reg)
  | nonceWr (idx val : Byte)
  | beginSession (key : Imm)
  | endSession
  | encryptSym (v : Byte)
  | decryptSym (c : Byte)
  | update (v : Byte)
  | tblRdFwd (idx : Byte)
  | tblRdInv (idx : Byte)
deriving DecidableEq, Repr

/-- Why bits are no command. -/
inductive Illegal where
  /-- The opcode is not in the map (R68). -/
  | undefinedOpcode (opc : Byte)
  /-- The opcode is in the map, but a reserved bit is 1 (R67). -/
  | reservedBits (opc : Byte)
  /-- Fewer than eight bytes: a partial word is not a command (R46). -/
  | partialWord
deriving DecidableEq, Repr

/-- The names an assembler line can begin with: R72's fourteen, then R73's five pseudo-commands. -/
inductive AsmOp where
  | lfsrInit | lfsrFwd | lfsrBwd | lfsrNext | lfsrPrev | lfsrRead | nonceWr | sessBegin | sessEnd
  | enc | dec | upd | tblFwd | tblInv
  | lfsrFwdN | lfsrBwdN | nonceLoad | encStr | decStr
deriving DecidableEq, Repr

/-- An operand of an assembler line as written: a number, or any other word (a register's name). -/
inductive AsmArg where
  | word (name : List Char)
  | num (n : Nat)
deriving DecidableEq, Repr

/-- A line of assembler source: a name and its operands (R72). -/
structure AsmLine where
  op : AsmOp
  args : List AsmArg
deriving DecidableEq, Repr

end Sys2Proof
end

