-- ==== Sys2Proof/Decode.lean ====
section
/-! DEFINITION. The command encoding (30_encoding R60 to R69): the opcode map, the decoder, total on every 64-bit
word and on any bytes, and the encoder. -/

namespace Sys2Proof

/-- `CMD64` from its four fields (R61). -/
def Cmd.pack (opc a b : Byte) (imm : Imm) : Cmd := opc ++ a ++ b ++ imm

/-- `OPC = cmd[63:56]` (R61). -/
def Cmd.opc (w : Cmd) : Byte := w.extractLsb' 56 8

/-- `A = cmd[55:48]`, the operands IDX, V and C (R61, R62). -/
def Cmd.a (w : Cmd) : Byte := w.extractLsb' 48 8

/-- `B = cmd[47:40]`, the operand VAL (R61, R62). -/
def Cmd.b (w : Cmd) : Byte := w.extractLsb' 40 8

/-- `IMM = cmd[39:0]`, the operands SEED and KEY (R61, R62). -/
def Cmd.imm (w : Cmd) : Imm := w.extractLsb' 0 40

/-- `SEL = cmd[48]`: 0 selects R17 and 1 selects R32 (R62). -/
def Cmd.sel (w : Cmd) : Reg := if w.getLsbD 48 then .r32 else .r17

/-- A row of the opcode map: a word `w` selects it when `w & mask = value` (R66). -/
structure OpRow where
  /-- The column `match`. -/
  value : Cmd
  mask : Cmd
  /-- The command, with fields taken from the word per R62. -/
  build : Cmd → Instr

/-- Whether a word selects a row (R66). -/
def OpRow.selects (r : OpRow) (w : Cmd) : Bool := w &&& r.mask == r.value

/-- The rows of the LFSR family (R66). -/
def lfsrRows : List OpRow := [
  ⟨0x1000000000000000, 0xFFFEFF0000000000, fun w => .lfsrInit w.sel w.imm⟩,
  ⟨0x1100000000000000, 0xFFFEFFFFFFFFFFFF, fun w => .lfsrStepFwd w.sel⟩,
  ⟨0x1200000000000000, 0xFFFEFFFFFFFFFFFF, fun w => .lfsrStepBwd w.sel⟩,
  ⟨0x1300000000000000, 0xFFFEFFFFFFFFFFFF, fun w => .lfsrNextByte w.sel⟩,
  ⟨0x1400000000000000, 0xFFFEFFFFFFFFFFFF, fun w => .lfsrPrevByte w.sel⟩,
  ⟨0x1500000000000000, 0xFFFEFFFFFFFFFFFF, fun w => .lfsrRead w.sel⟩]

/-- The rows of the session family (R66). -/
def sessionRows : List OpRow := [
  ⟨0x2000000000000000, 0xFF0000FFFFFFFFFF, fun w => .nonceWr w.a w.b⟩,
  ⟨0x2100000000000000, 0xFFFFFF0000000000, fun w => .beginSession w.imm⟩,
  ⟨0x2200000000000000, 0xFFFFFFFFFFFFFFFF, fun _ => .endSession⟩]

/-- The rows of the symbol family (R66). -/
def symbolRows : List OpRow := [
  ⟨0x2300000000000000, 0xFF00FFFFFFFFFFFF, fun w => .encryptSym w.a⟩,
  ⟨0x2400000000000000, 0xFF00FFFFFFFFFFFF, fun w => .decryptSym w.a⟩,
  ⟨0x2500000000000000, 0xFF00FFFFFFFFFFFF, fun w => .update w.a⟩,
  ⟨0x2600000000000000, 0xFF00FFFFFFFFFFFF, fun w => .tblRdFwd w.a⟩,
  ⟨0x2700000000000000, 0xFF00FFFFFFFFFFFF, fun w => .tblRdInv w.a⟩]

/-- The opcode map (R66). -/
def opcodeMap : List OpRow := lfsrRows ++ sessionRows ++ symbolRows

/-- `decode` of R69: the first row the word selects gives the command; a word that selects none is
illegal, for an undefined opcode (R68) or for a reserved bit that is 1 (R67). -/
def decode (w : Cmd) : Except Illegal Instr :=
  match opcodeMap.find? (fun r => r.selects w) with
  | some r => .ok (r.build w)
  | none =>
    if opcodeMap.any (fun r => r.value.opc == w.opc) then .error (.reservedBits w.opc)
    else .error (.undefinedOpcode w.opc)

/-- A command word from eight bytes, most significant first (R45). -/
def Cmd.ofBytes (b0 b1 b2 b3 b4 b5 b6 b7 : Byte) : Cmd :=
  b0 ++ b1 ++ b2 ++ b3 ++ b4 ++ b5 ++ b6 ++ b7

/-- The eight bytes of a command word: byte 0 is bits 63:56 and byte 7 is bits 7:0 (R45). -/
def Cmd.toBytes (w : Cmd) : List Byte :=
  (List.range 8).map fun k => w.extractLsb' (56 - 8 * k) 8

/-- The decoder on bytes: exactly one word per command (R60), most significant byte first (R45), and the
bytes after it; a partial word is not a command (R46). -/
def decodeBytes : List Byte → Except Illegal (Instr × List Byte)
  | b0 :: b1 :: b2 :: b3 :: b4 :: b5 :: b6 :: b7 :: rest =>
    match decode (Cmd.ofBytes b0 b1 b2 b3 b4 b5 b6 b7) with
    | .ok i => .ok (i, rest)
    | .error e => .error e
  | _ => .error .partialWord

/-- The instruction read from an instruction whose bits are `w`, numbered as spec/opcode_table.json
numbers them, which is as the 64-bit command word does (R11, R61); the bits from `nbits` up are 0. The
word goes to the decoder as the bytes that carry it (R45). -/
def decodeTableWord (nbits w : Nat) : Option Instr :=
  match decodeBytes (Cmd.toBytes (BitVec.ofNat 64 (w % 2 ^ nbits))) with
  | .ok (i, _) => some i
  | .error _ => none

/-- The `A` field that selects a register: `0000000` SEL (R66). -/
def Reg.field : Reg → Byte
  | .r17 => 0x00
  | .r32 => 0x01

/-- The command word of a command (R61, R66); every reserved field is 0 (R67). -/
def encode : Instr → Cmd
  | .lfsrInit sel seed => Cmd.pack 0x10 sel.field 0 seed
  | .lfsrStepFwd sel => Cmd.pack 0x11 sel.field 0 0
  | .lfsrStepBwd sel => Cmd.pack 0x12 sel.field 0 0
  | .lfsrNextByte sel => Cmd.pack 0x13 sel.field 0 0
  | .lfsrPrevByte sel => Cmd.pack 0x14 sel.field 0 0
  | .lfsrRead sel => Cmd.pack 0x15 sel.field 0 0
  | .nonceWr idx val => Cmd.pack 0x20 idx val 0
  | .beginSession key => Cmd.pack 0x21 0 0 key
  | .endSession => Cmd.pack 0x22 0 0 0
  | .encryptSym v => Cmd.pack 0x23 v 0 0
  | .decryptSym c => Cmd.pack 0x24 c 0 0
  | .update v => Cmd.pack 0x25 v 0 0
  | .tblRdFwd idx => Cmd.pack 0x26 idx 0 0
  | .tblRdInv idx => Cmd.pack 0x27 idx 0 0

end Sys2Proof
end

