-- ==== Sys2Proof/Config.lean ====
section
/-! DEFINITION. The configuration parameters of R8, and the constants the spec leaves open (D7, D8, D10). -/

namespace Sys2Proof

/-- Which nonce-mixing pass the block is configured with (R8 `NONCE_MIX`, R139). -/
inductive NonceMix where
  /-- `NONCE_MIX_DEFAULT` (R140), the spec's own instance. -/
  | defaultPass
  /-- The pass the platform was built with, of which only the contract of R139 is known: it is made of
  the opaque constants `Config.platform…` below (log entry 4). -/
  | platformPass
deriving DecidableEq, Repr, Inhabited

/-- The configuration parameters of R8, as raw data: a malformed configuration is a value too (R204).
A tap set is a mask: bit `t` is 1 when `t` is in the set. The fixed parameters of R8 (`W17`, `W32`,
`TABLE_SIZE`, `KEY_BITS`) are the widths of the types. -/
structure Config where
  /-- `TAPS17`, a subset of 0..16 (OPEN, D7). -/
  taps17 : BitVec 17
  /-- `TAPS32`, a subset of 0..31 (OPEN, D7). -/
  taps32 : BitVec 32
  /-- `PREFIX32` (OPEN, D8); a well-formed configuration has 1..255. -/
  prefix32 : BitVec 8
  /-- `NONCE_MIX` (OPEN, D10). -/
  nonceMix : NonceMix
deriving DecidableEq, Repr, Inhabited

/-- The configuration of the block at hand. The spec leaves it open (D7, D8, D10), so nothing is known
of it, not even that it is well formed (log entry 2). -/
opaque Config.actual : Config

/-- The spec's example configuration EX (R9), for test vectors only. -/
def Config.ex : Config where
  taps17 := 0x12000
  taps32 := 0x80200003
  prefix32 := 0x01
  nonceMix := .defaultPass

/-- `NONCE_DRAWS` of the platform's pass: a constant of the configuration, the same for both registers
and independent of KEY and NONCE (R139 (c); log entry 4). -/
opaque Config.platformDraws : Nat

/-- The accumulator the platform's pass starts from (N15: no initial j; log entry 4). -/
opaque Config.platformStart : Byte

/-- The order in which the platform's pass visits positions 0..255 (R139 (e); N15: no iteration order),
given as swaps applied to the ascending order: every order is some list of swaps (log entry 4). -/
opaque Config.platformOrder : List (Byte × Byte)

/-- One iteration of the platform's pass, at a position, from the running accumulator, the bytes the
pass draws from R17 and from R32, the table's content in address order and the nonce byte at that
position: the new accumulator and the swaps that permute the table (R139 (a), (b), (e); log entry 4). -/
opaque Config.platformStep (pos acc : Byte) (out17 out32 table : List Byte) (nonce : Byte) :
    Byte × List (Byte × Byte)

end Sys2Proof
end

