-- ==== Sys2Proof/Machine/State.lean ====
section
/-! DEFINITION. The state of the block (10_state R20, R34), the host's inputs, and why a step can stop. -/

namespace Sys2Proof.Machine

/-- Why a step stops with a fault. The block has none: an error is reported in STATUS and the next
command is accepted as usual (R200, R212), so the type has no constructor (log entry 10). -/
inductive Fault where
deriving DecidableEq, Repr

/-- Why a step is refused. -/
inductive Refusal where
  /-- Raised by the dispatch for an instruction that has no meaning yet; safe. No arm raises it now. -/
  | notModelled (mnemonic : String)
deriving DecidableEq, Repr

/-- The error conditions of R201, less code 0, which is success. -/
inductive Error where
  | invalidSeed
  | invalidTaps
  | sessionNotActive
  | sessionAlreadyActive
  | regNotInit
  | illegalCmd
deriving DecidableEq, Repr

/-- One address space of R40: (address, byte) cells, addresses strictly rising, and no cell that holds
what an address that is not listed reads as (log entry 9). -/
abbrev Memory := List Host.Cell

/-- The address spaces of R40. -/
inductive Space where
  /-- `FWD`, the array F. -/
  | fwd
  /-- `INVS`, the array INV. -/
  | invs
  /-- `NONCES`, the array NONCE. -/
  | nonces
deriving DecidableEq, Repr

/-- The substitution table with its inverse (R25, R26): one value, as R47 asks. -/
structure Tables where
  /-- F. -/
  fwd : Memory
  /-- INV. -/
  inv : Memory
deriving DecidableEq, Repr

/-- The registers the host can read (R28, R29). -/
inductive HostReg where
  | res
  | status
deriving DecidableEq, Repr

/-- What the host does at the block's interface between two commands. -/
inductive HostInput where
  /-- A word at the command port (R46, R60). -/
  | command (w : Cmd)
  /-- A read of RES or STATUS (R28, R29). -/
  | read (r : HostReg)
  /-- Reset is asserted (R230). -/
  | reset
deriving DecidableEq, Repr

/-- The state of the block. A register or table that holds no value is `none` (R23, R24, R34): V17, V32
and ACTIVE are these tags, one piece of state each (R20; log entry 3). -/
structure State where
  /-- The configuration (R8), no state of the block: a parameter of the step, which no command and no
  reset changes (R20, R230; log entry 2). -/
  cfg : Config
  /-- R17 (R21), with its valid flag V17 (R23). -/
  r17 : Option (BitVec 17)
  /-- R32 (R22), with its valid flag V32 (R23). -/
  r32 : Option (BitVec 32)
  /-- F and INV (R25, R26), with the session flag ACTIVE (R24). -/
  tables : Option Tables
  /-- NONCE (R27). -/
  nonce : Memory
  /-- RES (R28). -/
  res : BitVec 32
  /-- STATUS.ERR (R29, R30): `none` is code 0, the last command succeeded. -/
  err : Option Error
  /-- STATUS.STICKY (R29, R30). -/
  sticky : Bool
  /-- The host's inputs the block has not accepted yet, oldest first: no state of the block (R7, R20;
  log entry 1). -/
  port : List HostInput
deriving DecidableEq, Repr

/-- The state right after reset (R34): no register and no table holds a value, NONCE is 0x00 throughout,
RES and STATUS are 0; the configuration is the one at hand, and the host has issued nothing. -/
def State.reset : State where
  cfg := Config.actual
  r17 := none
  r32 := none
  tables := none
  nonce := []
  res := 0
  err := none
  sticky := false
  port := []

end Sys2Proof.Machine
end

