-- ==== Sys2Proof/Machine/Ops.lean ====
section
/-! DEFINITION. The named operations over the arrays and the state: reading and writing a byte of a space (R40), how a
command ends (R13: raise and complete), and the host's side of the block (reset, reads, the command port). -/

namespace Sys2Proof.Machine

/-! ## One address space (R40) -/

/-- The byte at an address; an address that is not listed reads 0x00 (R34 for NONCE; log entry 9). -/
def Memory.read : Memory → Byte → Byte
  | [], _ => 0#8
  | (b, u) :: m, a => if b = a.toNat then u else Memory.read m a

/-- The cells at other addresses. -/
def Memory.erase (m : Memory) (a : Byte) : Memory := m.filter fun c => c.1 != a.toNat

/-- The space with the byte at one address replaced. Writing 0x00 removes the cell. -/
def Memory.write : Memory → Byte → Byte → Memory
  | [], a, v => if v = 0#8 then [] else [(a.toNat, v)]
  | (b, u) :: m, a, v =>
    if b < a.toNat then (b, u) :: Memory.write m a v
    else if v = 0#8 then Memory.erase ((b, u) :: m) a
    else if b = a.toNat then (a.toNat, v) :: m
    else (a.toNat, v) :: (b, u) :: m

/-- The canonical form: addresses below 256, strictly rising, and no cell that holds 0x00. -/
abbrev Memory.wf (m : Memory) : Prop :=
  m.Pairwise (fun c d => c.1 < d.1) ∧ ∀ c ∈ m, c.1 < 256 ∧ c.2 ≠ 0#8

/-- The addresses of a space, ascending (R40). -/
def addresses : List Byte := (List.range 256).map (BitVec.ofNat 8)

/-- The 256 bytes of a space, in address order. -/
def Memory.bytes (m : Memory) : List Byte := addresses.map (Memory.read m)

/-- `tmp = F[i]; F[i] <- F[j]; F[j] <- tmp` (R137, R140). -/
def Memory.swap (m : Memory) (i j : Byte) : Memory :=
  Memory.write (Memory.write m i (Memory.read m j)) j (Memory.read m i)

/-- The identity permutation: `for x in 0..255: F[x] <- x` (R135). -/
def Memory.identity : Memory := addresses.foldl (fun m x => Memory.write m x x) []

/-- `MemRead(space, addr, 1)` (R13, R40): `none` where the space holds no value (R24). -/
def State.memRead (s : State) : Space → Byte → Option Byte
  | .fwd, a => s.tables.map fun t => Memory.read t.fwd a
  | .invs, a => s.tables.map fun t => Memory.read t.inv a
  | .nonces, a => some (Memory.read s.nonce a)

/-! ## The flags that say what holds a value (R23, R24) -/

/-- V17: R17 holds a value (R23). -/
def State.v17 (s : State) : Bool := s.r17.isSome

/-- V32: R32 holds a value (R23). -/
def State.v32 (s : State) : Bool := s.r32.isSome

/-- ACTIVE: a session is active (R24). -/
def State.active (s : State) : Bool := s.tables.isSome

/-! ## How a command ends (R13) -/

/-- `raise Error(code)`: ERR is the code and STICKY is 1, and nothing else changes (R13, R200, R202). It
stands where other machines take an exception: no vector, no saved state, no mode change, and so no
return either (R200, R212). -/
def State.raise (s : State) (e : Error) : State := { s with err := some e, sticky := true }

/-- `complete(ok)`: ERR is 0 (R13, R30). -/
def State.complete (s : State) : State := { s with err := none }

/-- The end of every command: its checks met an error, which is raised in the state before the command
(R202), or they passed and its writes stand, and it completes (R13). -/
def State.finish (s : State) (result : Except Error State) : Host.Outcome State Fault Refusal :=
  .next (match result with
    | .error e => s.raise e
    | .ok t => t.complete)

/-- `RES <- zext_32(v)` (R28). -/
def State.setRes (s : State) {n : Nat} (v : BitVec n) : State := { s with res := v.setWidth 32 }

/-- A word that decodes to no command raises ILLEGAL_CMD (R67, R68, R209). -/
def execIllegal (s : State) : Host.Outcome State Fault Refusal := s.finish (.error .illegalCmd)

/-! ## The host's side -/

/-- Reset is asserted: every element at its value of R34, the configuration unchanged (R230). The host's
later inputs are still to come. -/
def State.hardReset (s : State) : State := { State.reset with cfg := s.cfg, port := s.port }

/-- The host's next input, and the state with it taken from the port (R7). -/
def State.takeInput (s : State) : Option (HostInput × State) :=
  match s.port with
  | [] => none
  | i :: rest => some (i, { s with port := rest })

/-- The state with an input put where the block accepts its next one. -/
def State.issue (s : State) (i : HostInput) : State := { s with port := i :: s.port }

end Sys2Proof.Machine
end

