-- ==== Sys2Proof/Machine/Operands.lean ====
section
/-! DEFINITION. The operand forms: the register that SEL names (R100) and the state of a live session (R160). -/

namespace Sys2Proof.Machine

/-- `T` of R100's table: the selected register's tap set. -/
def selTaps (c : Config) : (sel : Reg) → BitVec sel.width
  | .r17 => c.taps17
  | .r32 => c.taps32

/-- `REG` and `V` of R100's table: the selected register's value, if it holds one. -/
def State.getReg (s : State) : (sel : Reg) → Option (BitVec sel.width)
  | .r17 => s.r17
  | .r32 => s.r32

/-- `REG <- v` and `V <- 1`. -/
def State.setReg (s : State) : (sel : Reg) → BitVec sel.width → State
  | .r17, v => { s with r17 := some v }
  | .r32, v => { s with r32 := some v }

/-- The value of the selected register for a command that reads it: REG_NOT_INIT when V = 0 (R100 (b),
R208). -/
def State.readReg (s : State) (sel : Reg) : Except Error (BitVec sel.width) :=
  match s.getReg sel with
  | none => .error .regNotInit
  | some v => .ok v

/-- The same for the commands that step the register, after the check of the session (R100 (a), (b),
R203, R207). -/
def State.ownReg (s : State) (sel : Reg) : Except Error (BitVec sel.width) :=
  if s.active then .error .sessionAlreadyActive else s.readReg sel

/-- The two registers a session draws from (R136). -/
structure Regs where
  r17 : BitVec 17
  r32 : BitVec 32
deriving DecidableEq, Repr

/-- What a session owns: both registers, F and INV (R24). -/
structure Session where
  regs : Regs
  tables : Tables
deriving DecidableEq, Repr

/-- The table of the active session: SESSION_NOT_ACTIVE when ACTIVE = 0 (R160, R206). -/
def State.sessionTables (s : State) : Except Error Tables :=
  match s.tables with
  | none => .error .sessionNotActive
  | some t => .ok t

/-- The active session. While ACTIVE = 1 both registers are valid in every state a run reaches (R160); in
any other state the draw would read a register that holds no value, which raises REG_NOT_INIT (R23;
log entry 5). -/
def State.session (s : State) : Except Error Session :=
  match s.tables, s.r17, s.r32 with
  | none, _, _ => .error .sessionNotActive
  | some t, some a, some b => .ok ⟨⟨a, b⟩, t⟩
  | some _, _, _ => .error .regNotInit

/-- The state with a session's registers and tables written, their valid flags and ACTIVE at 1 (R23, R24). -/
def State.putSession (s : State) (x : Session) : State :=
  { s with r17 := some x.regs.r17, r32 := some x.regs.r32, tables := some x.tables }

end Sys2Proof.Machine
end

