-- ==== Sys2Proof/Machine/Lfsr.lean ====
section
/-! DEFINITION. The LFSR family (40_lfsr): the step functions, the byte functions, and the six commands. -/

namespace Sys2Proof.Machine

/-! ## The functions (R103 to R107) -/

/-- The XOR of bits `n-1..0` of `x` (R12's `XOR_{t in T}`, once `x` is masked by T). -/
def xorBelow {w : Nat} (x : BitVec w) : Nat → Bool
  | 0 => false
  | n + 1 => x.getLsbD n ^^ xorBelow x n

/-- `fb_T(s)`: the XOR of the bits of `s` at the taps (R103). -/
def feedback {w : Nat} (taps s : BitVec w) : Bool := xorBelow (taps &&& s) w

/-- `fwd_w,T(s)`: one forward step (R103). -/
def fwdStep {w : Nat} (taps s : BitVec w) : BitVec w :=
  (s <<< 1) ||| (BitVec.ofBool (feedback taps s)).setWidth w

/-- `bwd_w,T(s)`: one backward step (R104). -/
def bwdStep {w : Nat} (taps s : BitVec w) : BitVec w :=
  let low := s >>> 1
  let top := s.getLsbD 0 ^^ xorBelow (taps &&& low) (w - 1)
  ((BitVec.ofBool top).setWidth w <<< (w - 1)) ||| low

/-- `fwd^k` (R15). -/
def fwdSteps {w : Nat} (taps : BitVec w) (k : Nat) (s : BitVec w) : BitVec w := (fwdStep taps)^[k] s

/-- `bwd^k` (R15). -/
def bwdSteps {w : Nat} (taps : BitVec w) (k : Nat) (s : BitVec w) : BitVec w := (bwdStep taps)^[k] s

/-- The byte `nb(REG)` returns: the low 8 bits before stepping (R106). -/
def lowByte {w : Nat} (s : BitVec w) : Byte := s.setWidth 8

/-- What `nb(REG)` leaves in the register: exactly 8 forward steps (R106). -/
def nextByteState {w : Nat} (taps s : BitVec w) : BitVec w := fwdSteps taps 8 s

/-- `pb(REG)`: exactly 8 backward steps (R107). -/
def prevByteState {w : Nat} (taps s : BitVec w) : BitVec w := bwdSteps taps 8 s

/-- The bytes of `n` draws from one register, first drawn first (R106). -/
def drawnBytes {w : Nat} (taps : BitVec w) : Nat → BitVec w → List Byte
  | 0, _ => []
  | n + 1, s => lowByte s :: drawnBytes taps n (nextByteState taps s)

/-- `tapsWellFormed(T, w)` is `T != {} and (w-1) in T` (R135; R102). -/
def tapsWellFormed {w : Nat} (taps : BitVec w) : Bool := taps != 0 && taps.getLsbD (w - 1)

/-- `SEED = 0 or SEED > MASK(w)` (R102). -/
def seedInvalid (w : Nat) (seed : Imm) : Bool := seed == 0 || decide (2 ^ w - 1 < seed.toNat)

/-! ## The commands -/

/-- LFSR_INIT (R102). -/
def execLfsrInit (sel : Reg) (seed : Imm) (s : State) : Host.Outcome State Fault Refusal :=
  s.finish
    (if s.active then .error .sessionAlreadyActive
     else if !tapsWellFormed (selTaps s.cfg sel) then .error .invalidTaps
     else if seedInvalid sel.width seed then .error .invalidSeed
     else .ok (s.setReg sel (seed.setWidth sel.width)))

/-- LFSR_STEP_FWD (R105). -/
def execLfsrStepFwd (sel : Reg) (s : State) : Host.Outcome State Fault Refusal :=
  s.finish ((s.ownReg sel).map fun x => s.setReg sel (fwdStep (selTaps s.cfg sel) x))

/-- LFSR_STEP_BWD (R108). -/
def execLfsrStepBwd (sel : Reg) (s : State) : Host.Outcome State Fault Refusal :=
  s.finish ((s.ownReg sel).map fun x => s.setReg sel (bwdStep (selTaps s.cfg sel) x))

/-- LFSR_NEXT_BYTE (R109). -/
def execLfsrNextByte (sel : Reg) (s : State) : Host.Outcome State Fault Refusal :=
  s.finish ((s.ownReg sel).map fun x =>
    (s.setReg sel (nextByteState (selTaps s.cfg sel) x)).setRes (lowByte x))

/-- LFSR_PREV_BYTE (R110). -/
def execLfsrPrevByte (sel : Reg) (s : State) : Host.Outcome State Fault Refusal :=
  s.finish ((s.ownReg sel).map fun x => s.setReg sel (prevByteState (selTaps s.cfg sel) x))

/-- LFSR_READ (R111): allowed while a session is active, and the register does not change. -/
def execLfsrRead (sel : Reg) (s : State) : Host.Outcome State Fault Refusal :=
  s.finish ((s.readReg sel).map fun x => s.setRes x)

end Sys2Proof.Machine
end

