-- ==== Sys2Proof/Machine/Session.lean ====
section
/-! DEFINITION. The session family (41_sbox_session): the key split, the draw, the shuffle, the nonce-mixing pass, the
inverse rebuild, and NONCE_WR, BEGIN_SESSION and END_SESSION. -/

namespace Sys2Proof.Machine

/-! ## The key split (R132 to R134) -/

/-- `SEED17 = (1 << 16) | KEY[15:0]` (R132). -/
def seed17 (key : Imm) : BitVec 17 := (1 : BitVec 1) ++ key.extractLsb' 0 16

/-- `SEED32 = (PREFIX32 << 24) | KEY[39:16]` (R133). -/
def seed32 (c : Config) (key : Imm) : BitVec 32 := c.prefix32 ++ key.extractLsb' 16 24

/-- The seeds of a session (R135). -/
def sessionSeeds (c : Config) (key : Imm) : Regs := ⟨seed17 key, seed32 c key⟩

/-! ## The draw (R136) -/

/-- The byte of `draw()`: `nb17() ^ nb32()` (R136). -/
def Regs.drawByte (r : Regs) : Byte := lowByte r.r17 ^^^ lowByte r.r32

/-- What `n` draws leave in the registers: each advances 8 steps a draw (R136). -/
def Regs.advance (c : Config) (n : Nat) (r : Regs) : Regs :=
  ⟨fwdSteps c.taps17 (8 * n) r.r17, fwdSteps c.taps32 (8 * n) r.r32⟩

/-- What one `draw()` leaves in the registers (R136). -/
def Regs.afterDraw (c : Config) (r : Regs) : Regs :=
  ⟨nextByteState c.taps17 r.r17, nextByteState c.taps32 r.r32⟩

/-! ## Table generation (R137 to R141) -/

/-- The registers and F while BEGIN_SESSION builds the table (R33: transient). -/
structure Build where
  regs : Regs
  fwd : Memory
deriving DecidableEq, Repr

/-- `j = draw() mod (i + 1)`, computed exactly, with its bias (R137, R138). -/
def shuffleIndex (d : Byte) (i : Nat) : Byte := BitVec.ofNat 8 (d.toNat % (i + 1))

/-- One step of the shuffle, for one `i` (R137). -/
def shuffleStep (c : Config) (i : Nat) (b : Build) : Build :=
  ⟨b.regs.afterDraw c, Memory.swap b.fwd (BitVec.ofNat 8 i) (shuffleIndex b.regs.drawByte i)⟩

/-- `SHUFFLE()` from `i` down to 1 (R137). -/
def shuffleFrom (c : Config) : Nat → Build → Build
  | 0, b => b
  | i + 1, b => shuffleFrom c i (shuffleStep c (i + 1) b)

/-- One iteration of `NONCE_MIX_DEFAULT`, at position `i`, on the accumulator and the table (R140). -/
def defaultMixStep (c : Config) (nonce : Memory) (jb : Byte × Build) (i : Byte) : Byte × Build :=
  let d := jb.2.regs.drawByte
  let j := jb.1 + Memory.read jb.2.fwd i + Memory.read nonce i + d
  (j, ⟨jb.2.regs.afterDraw c, Memory.swap jb.2.fwd i j⟩)

/-- `NONCE_MIX_DEFAULT()` (R140). -/
def defaultMix (c : Config) (nonce : Memory) (b : Build) : Build :=
  (addresses.foldl (defaultMixStep c nonce) (0, b)).2

/-- A list of swaps of table entries, first swap first. -/
def applySwaps (m : Memory) (swaps : List (Byte × Byte)) : Memory :=
  swaps.foldl (fun m p => Memory.swap m p.1 p.2) m

/-- One iteration of the platform's pass, at position `i` (R139 (e); log entry 4). -/
def platformMixStep (out17 out32 : List Byte) (nonce : Memory) (jf : Byte × Memory) (i : Byte) :
    Byte × Memory :=
  let r := Config.platformStep i jf.1 out17 out32 (Memory.bytes jf.2) (Memory.read nonce i)
  (r.1, applySwaps jf.2 r.2)

/-- The positions in the order the platform's pass visits them (R139 (e); log entry 4). -/
def platformPositions : List Byte := Memory.bytes (applySwaps Memory.identity Config.platformOrder)

/-- The platform's nonce-mixing pass. It has the properties of R139 by its construction: it reads F,
NONCE and drawn bytes, permutes F by swaps, and advances each register by `8 * NONCE_DRAWS` steps. What
the registers give does not depend on F or NONCE (R169), so all the pass draws is drawn first
(log entry 4). -/
def platformMix (c : Config) (nonce : Memory) (b : Build) : Build :=
  let out17 := drawnBytes c.taps17 Config.platformDraws b.regs.r17
  let out32 := drawnBytes c.taps32 Config.platformDraws b.regs.r32
  ⟨b.regs.advance c Config.platformDraws,
    (platformPositions.foldl (platformMixStep out17 out32 nonce) (Config.platformStart, b.fwd)).2⟩

/-- `NONCE_DRAWS` (R8, R139 (c), R140). -/
def nonceDraws : NonceMix → Nat
  | .defaultPass => 256
  | .platformPass => Config.platformDraws

/-- `INIT_DRAWS = 255 + NONCE_DRAWS` (R10). -/
def initDraws (c : Config) : Nat := 255 + nonceDraws c.nonceMix

/-- `NONCE_MIX()` (R139). -/
def nonceMix (c : Config) (nonce : Memory) (b : Build) : Build :=
  match c.nonceMix with
  | .defaultPass => defaultMix c nonce b
  | .platformPass => platformMix c nonce b

/-- `REBUILD_INV()`: `for x in 0..255: INV[F[x]] <- x` (R141). -/
def rebuildInv (fwd : Memory) : Memory :=
  addresses.foldl (fun inv x => Memory.write inv (Memory.read fwd x) x) []

/-- The session BEGIN_SESSION builds: a function of KEY, NONCE and the configuration alone (R135, R142). -/
def buildSession (c : Config) (nonce : Memory) (key : Imm) : Session :=
  let b := nonceMix c nonce (shuffleFrom c 255 ⟨sessionSeeds c key, Memory.identity⟩)
  ⟨b.regs, ⟨b.fwd, rebuildInv b.fwd⟩⟩

/-! ## The commands -/

/-- NONCE_WR (R131). -/
def execNonceWr (idx val : Byte) (s : State) : Host.Outcome State Fault Refusal :=
  s.finish (.ok { s with nonce := Memory.write s.nonce idx val })

/-- BEGIN_SESSION (R135). -/
def execBeginSession (key : Imm) (s : State) : Host.Outcome State Fault Refusal :=
  s.finish
    (if s.active then .error .sessionAlreadyActive
     else if !tapsWellFormed s.cfg.taps17 || !tapsWellFormed s.cfg.taps32 then .error .invalidTaps
     else if seed17 key == 0 || seed32 s.cfg key == 0 then .error .invalidSeed
     else .ok (s.putSession (buildSession s.cfg s.nonce key)))

/-- END_SESSION (R143): ACTIVE, V17 and V32 are cleared, so F, INV, R17 and R32 hold no value. -/
def execEndSession (s : State) : Host.Outcome State Fault Refusal :=
  s.finish (s.sessionTables.map fun _ => { s with tables := none, r17 := none, r32 := none })

end Sys2Proof.Machine
end

