-- ==== Sys2Proof/Machine/Symbol.lean ====
section
/-! DEFINITION. The symbol family (42_sbox_symbol): the update rule, ENCRYPT_SYM, DECRYPT_SYM, UPDATE and the two
table reads. -/

namespace Sys2Proof.Machine

/-- The table part of `update(v)` for the drawn index `i`: swap F[v] with F[i], and keep INV the exact
inverse (R161). -/
def Tables.update (t : Tables) (v i : Byte) : Tables :=
  let a := Memory.read t.fwd v
  let b := Memory.read t.fwd i
  ⟨Memory.write (Memory.write t.fwd v b) i a, Memory.write (Memory.write t.inv b v) a i⟩

/-- `update(v)`: draw the index, then the table part; both registers advance 8 steps (R161). -/
def Session.update (c : Config) (x : Session) (v : Byte) : Session :=
  ⟨x.regs.afterDraw c, x.tables.update v x.regs.drawByte⟩

/-- ENCRYPT_SYM (R162): the ciphertext is the entry before the update. -/
def execEncryptSym (v : Byte) (s : State) : Host.Outcome State Fault Refusal :=
  s.finish (s.session.map fun x => (s.putSession (x.update s.cfg v)).setRes (Memory.read x.tables.fwd v))

/-- DECRYPT_SYM (R163): the update is given the recovered plaintext, never the ciphertext. -/
def execDecryptSym (c : Byte) (s : State) : Host.Outcome State Fault Refusal :=
  s.finish (s.session.map fun x =>
    let v := Memory.read x.tables.inv c
    (s.putSession (x.update s.cfg v)).setRes v)

/-- UPDATE (R164): the draw is not returned. -/
def execUpdate (v : Byte) (s : State) : Host.Outcome State Fault Refusal :=
  s.finish (s.session.map fun x => s.putSession (x.update s.cfg v))

/-- TBL_RD_FWD (R165): it draws nothing. -/
def execTblRdFwd (idx : Byte) (s : State) : Host.Outcome State Fault Refusal :=
  s.finish (s.sessionTables.map fun t => s.setRes (Memory.read t.fwd idx))

/-- TBL_RD_INV (R166): it draws nothing. -/
def execTblRdInv (idx : Byte) (s : State) : Host.Outcome State Fault Refusal :=
  s.finish (s.sessionTables.map fun t => s.setRes (Memory.read t.inv idx))

end Sys2Proof.Machine
end

