-- ==== Sys2Proof/Machine/Dispatch.lean ====
section
/-! DEFINITION. The dispatch: one arm per command, each a direct call of its meaning. -/

namespace Sys2Proof.Machine

def exec (i : Instr) (s : State) : Host.Outcome State Fault Refusal :=
  match i with
  | .lfsrInit sel seed => Sys2Proof.Machine.execLfsrInit sel seed s
  | .lfsrStepFwd sel => Sys2Proof.Machine.execLfsrStepFwd sel s
  | .lfsrStepBwd sel => Sys2Proof.Machine.execLfsrStepBwd sel s
  | .lfsrNextByte sel => Sys2Proof.Machine.execLfsrNextByte sel s
  | .lfsrPrevByte sel => Sys2Proof.Machine.execLfsrPrevByte sel s
  | .lfsrRead sel => Sys2Proof.Machine.execLfsrRead sel s
  | .nonceWr idx val => Sys2Proof.Machine.execNonceWr idx val s
  | .beginSession key => Sys2Proof.Machine.execBeginSession key s
  | .endSession => Sys2Proof.Machine.execEndSession s
  | .encryptSym v => Sys2Proof.Machine.execEncryptSym v s
  | .decryptSym c => Sys2Proof.Machine.execDecryptSym c s
  | .update v => Sys2Proof.Machine.execUpdate v s
  | .tblRdFwd idx => Sys2Proof.Machine.execTblRdFwd idx s
  | .tblRdInv idx => Sys2Proof.Machine.execTblRdInv idx s

end Sys2Proof.Machine
end

