-- ==== Sys2Proof/Machine/Flags.lean ====
section
/-! DEFINITION. The status register: the error codes (R201) and the layout of STATUS (R29), and what a host read gives. -/

namespace Sys2Proof.Machine

/-- The code of an error condition (R201). -/
def Error.code : Error → BitVec 4
  | .invalidSeed => 1
  | .invalidTaps => 2
  | .sessionNotActive => 3
  | .sessionAlreadyActive => 4
  | .regNotInit => 5
  | .illegalCmd => 6

/-- STATUS.ERR, bits 11:8: the code of the last command's error, 0 if it succeeded (R29, R30, R201). -/
def State.errCode (s : State) : BitVec 4 :=
  match s.err with
  | none => 0
  | some e => e.code

/-- STATUS (R29): ERR in 11:8, STICKY in 3, V32 in 2, V17 in 1, ACTIVE in 0; the reserved bits 31:12 and
7:4 read 0. -/
def State.status (s : State) : BitVec 32 :=
  (0 : BitVec 20) ++ s.errCode ++ (0 : BitVec 4) ++ BitVec.ofBool s.sticky ++ BitVec.ofBool s.v32
    ++ BitVec.ofBool s.v17 ++ BitVec.ofBool s.active

/-- What a host read gives (R28, R29); it changes nothing. -/
def State.hostRead (s : State) : HostReg → BitVec 32
  | .res => s.res
  | .status => s.status

end Sys2Proof.Machine
end

