-- ==== Sys2Proof/Machine/Step.lean ====
section
/-! DEFINITION. One step: the block accepts the host's next input (R7), and where a test's instruction word goes. -/

namespace Sys2Proof.Machine

/-- One input of the host, whole: a command word is decoded and executed, or reported illegal (R69,
R209); a host read changes nothing (R28, R29); reset (R230). -/
def accept (i : HostInput) (s : State) : Host.Outcome State Fault Refusal :=
  match i with
  | .command w =>
    match decode w with
    | .ok c => exec c s
    | .error _ => execIllegal s
  | .read _ => .next s
  | .reset => .next s.hardReset

/-- One step. With no input the block waits, unchanged (R231; log entry 6). -/
def step (s : State) : Host.Outcome State Fault Refusal :=
  match s.takeInput with
  | none => .next s
  | some (i, t) => accept i t

/-- The state with an instruction, whose bits are `w` as spec/opcode_table.json numbers them and 0 from
`nbits` up, at the head of the command port: there is no fetch, and the host's next word is the block's
next command (R7, R51; log entry 1). -/
def State.withFetchWord (s : State) (nbits w : Nat) : State :=
  s.issue (.command (BitVec.ofNat 64 (w % 2 ^ nbits)))

end Sys2Proof.Machine
end

