-- ==== Sys2Proof/WellFormed.lean ====
section
/-! DEFINITION. The well-formedness checks: of the configuration (R8), of an assembler line's operands (R72, R73),
and of a command, whose fields' types leave nothing to check. -/

namespace Sys2Proof

/-- R8 (a): `TAPS17` is non-empty and contains 16. -/
def Config.taps17Ok (c : Config) : Bool := c.taps17 != 0 && c.taps17.getLsbD 16

/-- R8 (b): `TAPS32` is non-empty and contains 31. -/
def Config.taps32Ok (c : Config) : Bool := c.taps32 != 0 && c.taps32.getLsbD 31

/-- R8 (c): `1 <= PREFIX32 <= 255`. -/
def Config.prefixOk (c : Config) : Bool := c.prefix32 != 0

/-- R8: the configuration is well formed. Condition (d), that `NONCE_MIX` has the properties of R139,
holds of both passes by their construction. -/
def Config.wellFormed (c : Config) : Bool := c.taps17Ok && c.taps32Ok && c.prefixOk

/-- A command is well formed whatever its operands are: every operand is a plain unsigned field of its
full width (R62), which its type already says. -/
def Instr.wellFormed : Instr → Bool
  | .lfsrInit _ _ | .lfsrStepFwd _ | .lfsrStepBwd _ | .lfsrNextByte _ | .lfsrPrevByte _ | .lfsrRead _
  | .nonceWr _ _ | .beginSession _ | .endSession | .encryptSym _ | .decryptSym _ | .update _
  | .tblRdFwd _ | .tblRdInv _ => true

/-- The register a name stands for: `r17` and `r32`, and no other (R72). -/
def Reg.named? (name : List Char) : Option Reg :=
  if name = ['r', '1', '7'] then some .r17 else if name = ['r', '3', '2'] then some .r32 else none

/-- The operand is the name of a register (R72). -/
def AsmArg.isReg : AsmArg → Bool
  | .word name => (Reg.named? name).isSome
  | .num _ => false

/-- The operand is a number that fits a field of `n` bits (R72). -/
def AsmArg.fits (n : Nat) : AsmArg → Bool
  | .num k => k < 2 ^ n
  | .word _ => false

/-- The operand is a number (the count of `lfsr.fwdn` and `lfsr.bwdn`, R73). -/
def AsmArg.isNum : AsmArg → Bool
  | .num _ => true
  | .word _ => false

/-- The operands an assembler accepts after each name (R72, R73). -/
def AsmLine.wellFormed (l : AsmLine) : Bool :=
  match l.op, l.args with
  | .lfsrInit, [r, seed] => r.isReg && seed.fits 40
  | .lfsrFwd, [r] | .lfsrBwd, [r] | .lfsrNext, [r] | .lfsrPrev, [r] | .lfsrRead, [r] => r.isReg
  | .nonceWr, [idx, val] => idx.fits 8 && val.fits 8
  | .sessBegin, [key] => key.fits 40
  | .sessEnd, [] => true
  | .enc, [v] | .dec, [v] | .upd, [v] | .tblFwd, [v] | .tblInv, [v] => v.fits 8
  | .lfsrFwdN, [r, n] | .lfsrBwdN, [r, n] => r.isReg && n.isNum
  | .nonceLoad, bs => bs.length == 256 && bs.all (AsmArg.fits 8)
  | .encStr, vs | .decStr, vs => !vs.isEmpty && vs.all (AsmArg.fits 8)
  | _, _ => false

end Sys2Proof
end

