-- ==== Sys2Proof/Machine/Assembler.lean ====
section
/-! DEFINITION. The assembler (R72) and the pseudo-commands (R73): what the host issues for a line of source. -/

namespace Sys2Proof.Machine

/-- The text of each name (R72, R73). -/
def asmSpelling : AsmOp → String
  | .lfsrInit => "lfsr.init"
  | .lfsrFwd => "lfsr.fwd"
  | .lfsrBwd => "lfsr.bwd"
  | .lfsrNext => "lfsr.next"
  | .lfsrPrev => "lfsr.prev"
  | .lfsrRead => "lfsr.read"
  | .nonceWr => "nonce.wr"
  | .sessBegin => "sess.begin"
  | .sessEnd => "sess.end"
  | .enc => "enc"
  | .dec => "dec"
  | .upd => "upd"
  | .tblFwd => "tbl.fwd"
  | .tblInv => "tbl.inv"
  | .lfsrFwdN => "lfsr.fwdn"
  | .lfsrBwdN => "lfsr.bwdn"
  | .nonceLoad => "nonce.load"
  | .encStr => "enc.str"
  | .decStr => "dec.str"

/-- Every name of R72 and R73. -/
def asmOps : List AsmOp :=
  [.lfsrInit, .lfsrFwd, .lfsrBwd, .lfsrNext, .lfsrPrev, .lfsrRead, .nonceWr, .sessBegin, .sessEnd,
    .enc, .dec, .upd, .tblFwd, .tblInv, .lfsrFwdN, .lfsrBwdN, .nonceLoad, .encStr, .decStr]

/-- The name a line begins with (R72). -/
def asmOpNamed (name : List Char) : Option AsmOp :=
  asmOps.find? fun op => (asmSpelling op).toList == name

/-- A digit's value below a base; hex digits in either case (log entry 13). -/
def digitValue (base : Nat) (c : Char) : Option Nat :=
  let v := if '0' ≤ c ∧ c ≤ '9' then c.toNat - 48
    else if 'a' ≤ c ∧ c ≤ 'f' then c.toNat - 87
    else if 'A' ≤ c ∧ c ≤ 'F' then c.toNat - 55
    else base
  if v < base then some v else none

/-- The value of a run of digits, added to a prefix already read. -/
def digitsValue (base : Nat) : Nat → List Char → Option Nat
  | n, [] => some n
  | n, c :: cs =>
    match digitValue base c with
    | none => none
    | some d => digitsValue base (base * n + d) cs

/-- A number, decimal or `0x` hex (R72). -/
def asmNumber : List Char → Option Nat
  | '0' :: 'x' :: c :: cs => digitsValue 16 0 (c :: cs)
  | c :: cs => digitsValue 10 0 (c :: cs)
  | [] => none

/-- An operand as written: a number, or any other word. -/
def asmArg (cs : List Char) : AsmArg :=
  match asmNumber cs with
  | some n => .num n
  | none => .word cs

/-- A word without the spaces around it (log entry 13). -/
def trimSpaces (cs : List Char) : List Char :=
  ((cs.dropWhile (· == ' ')).reverse.dropWhile (· == ' ')).reverse

/-- A line read as text: the name up to the first space, then the operands between commas (R72). -/
def readLine (text : List Char) : Option AsmLine :=
  let line := trimSpaces text
  let rest := trimSpaces (line.dropWhile (· != ' '))
  let words := if rest.isEmpty then [] else rest.splitOn ','
  match asmOpNamed (line.takeWhile (· != ' ')) with
  | none => none
  | some op => some ⟨op, words.map fun w => asmArg (trimSpaces w)⟩

/-- The register an operand names (R72: `r17`, `r32`, no other). -/
def asmReg : AsmArg → Option Reg
  | .word name => Reg.named? name
  | .num _ => none

/-- An operand's value in a field of `n` bits; one that does not fit is refused (R72). -/
def asmField (n : Nat) : AsmArg → Option (BitVec n)
  | .num k => if k < 2 ^ n then some (BitVec.ofNat n k) else none
  | .word _ => none

/-- The count of a repeated command (R73). -/
def asmCount : AsmArg → Option Nat
  | .num k => some k
  | .word _ => none

/-- A command issued at the port. -/
def issued (i : Instr) : HostInput := .command (encode i)

/-- A command whose one operand is a byte. -/
def asmByteCommand (f : Byte → Instr) (arg : AsmArg) : Option (List HostInput) :=
  (asmField 8 arg).map fun v => [issued (f v)]

/-- A command whose one operand is a register. -/
def asmRegCommand (f : Reg → Instr) (arg : AsmArg) : Option (List HostInput) :=
  (asmReg arg).map fun r => [issued (f r)]

/-- `n` copies of a command (R73). -/
def asmRepeat (f : Reg → Instr) (reg count : AsmArg) : Option (List HostInput) :=
  (asmReg reg).bind fun r => (asmCount count).map fun n => List.replicate n (issued (f r))

/-- The operands as bytes, if every one of them is one. -/
def asmBytes : List AsmArg → Option (List Byte)
  | [] => some []
  | arg :: args => (asmField 8 arg).bind fun v => (asmBytes args).map fun vs => v :: vs

/-- `nonce.wr 0, b0` and so on, in ascending index order (R73). -/
def nonceLoad (bytes : List Byte) : List HostInput :=
  bytes.mapIdx fun k b => issued (.nonceWr (BitVec.ofNat 8 k) b)

/-- One symbol command after another, the host reading RES after each (R73). -/
def symbolString (f : Byte → Instr) (symbols : List Byte) : List HostInput :=
  symbols.flatMap fun v => [issued (f v), .read .res]

/-- What the host issues for a line: one command word (R72), or a pseudo-command's expansion (R73);
`none` where an assembler refuses the line. -/
def assemble (line : AsmLine) : Option (List HostInput) :=
  match line.op, line.args with
  | .lfsrInit, [r, seed] =>
    (asmReg r).bind fun r => (asmField 40 seed).map fun x => [issued (.lfsrInit r x)]
  | .lfsrFwd, [r] => asmRegCommand .lfsrStepFwd r
  | .lfsrBwd, [r] => asmRegCommand .lfsrStepBwd r
  | .lfsrNext, [r] => asmRegCommand .lfsrNextByte r
  | .lfsrPrev, [r] => asmRegCommand .lfsrPrevByte r
  | .lfsrRead, [r] => asmRegCommand .lfsrRead r
  | .nonceWr, [idx, val] =>
    (asmField 8 idx).bind fun i => (asmField 8 val).map fun v => [issued (.nonceWr i v)]
  | .sessBegin, [key] => (asmField 40 key).map fun k => [issued (.beginSession k)]
  | .sessEnd, [] => some [issued .endSession]
  | .enc, [v] => asmByteCommand .encryptSym v
  | .dec, [c] => asmByteCommand .decryptSym c
  | .upd, [v] => asmByteCommand .update v
  | .tblFwd, [idx] => asmByteCommand .tblRdFwd idx
  | .tblInv, [idx] => asmByteCommand .tblRdInv idx
  | .lfsrFwdN, [r, n] => asmRepeat .lfsrStepFwd r n
  | .lfsrBwdN, [r, n] => asmRepeat .lfsrStepBwd r n
  | .nonceLoad, bs => if bs.length = 256 then (asmBytes bs).map nonceLoad else none
  | .encStr, v :: vs => (asmBytes (v :: vs)).map (symbolString .encryptSym)
  | .decStr, c :: cs => (asmBytes (c :: cs)).map (symbolString .decryptSym)
  | _, _ => none

/-- What the host issues for a line of text (R72, R73). -/
def assembleText (text : String) : Option (List HostInput) := (readLine text.toList).bind assemble

end Sys2Proof.Machine
end

