-- ==== Sys2Proof/Safety.lean ====
section
/-! DEFINITION. What the claims speak of: the invariant of the block, the frames, and runs of commands. -/

namespace Sys2Proof.Machine

/-! ## The invariant -/

/-- F and INV are exact inverses (R26, R167). -/
def Tables.Inverse (t : Tables) : Prop :=
  (∀ x, Memory.read t.inv (Memory.read t.fwd x) = x) ∧ ∀ y, Memory.read t.fwd (Memory.read t.inv y) = y

/-- Every byte value occurs exactly once (R25). -/
def Memory.Permutation (m : Memory) : Prop := ∀ y : Byte, ∃! x : Byte, Memory.read m x = y

/-- A register that holds a value holds no 0 (R101), and its tap set is well formed (R204). -/
def ValidReg (s : State) (sel : Reg) : Prop :=
  ∀ x, s.getReg sel = some x → x ≠ 0 ∧ tapsWellFormed (selTaps s.cfg sel) = true

/-- What holds of the block between any two commands. -/
structure State.Inv (s : State) : Prop where
  /-- R101, R204. -/
  reg : ∀ sel, ValidReg s sel
  /-- R160: while ACTIVE = 1, V17 = V32 = 1. -/
  valid : s.active = true → s.v17 = true ∧ s.v32 = true
  /-- R25, R26, R167: while ACTIVE = 1, F and INV are inverse permutations. -/
  inverse : ∀ t, s.tables = some t → t.Inverse
  /-- The arrays are in canonical form (log entry 9). -/
  arrays : Memory.wf s.nonce ∧ ∀ t, s.tables = some t → Memory.wf t.fwd ∧ Memory.wf t.inv
  /-- R30: an error that ERR reports is one STICKY records. -/
  sticky : s.err ≠ none → s.sticky = true

/-! ## Frames -/

/-- Everything but ERR and STICKY is as it was: the configuration, the registers and their valid flags,
ACTIVE, every byte of the three spaces, RES, and the host's later inputs. -/
structure SameButStatus (s t : State) : Prop where
  cfg : t.cfg = s.cfg
  reg : ∀ sel, t.getReg sel = s.getReg sel
  active : t.active = s.active
  mem : ∀ sp a, t.memRead sp a = s.memRead sp a
  res : t.res = s.res
  port : t.port = s.port

/-- A command that succeeded: ERR is 0 and STICKY is as it was (R13, R30). -/
def Succeeded (s t : State) : Prop := t.err = none ∧ t.sticky = s.sticky

/-- A command that failed with an error: ERR is the code, STICKY is 1, and nothing else changed (R202). -/
def Failed (e : Error) (s t : State) : Prop :=
  t.err = some e ∧ t.sticky = true ∧ SameButStatus s t

/-- The frame of the commands that write one register: the other register, the session, every byte of
every space, RES and the inputs are as they were, and the command succeeded. -/
structure OnlyReg (sel : Reg) (s t : State) : Prop where
  cfg : t.cfg = s.cfg
  reg : ∀ p, p ≠ sel → t.getReg p = s.getReg p
  active : t.active = s.active
  mem : ∀ sp a, t.memRead sp a = s.memRead sp a
  port : t.port = s.port
  ok : Succeeded s t

/-- The frame of a succeeding command that writes RES and nothing else. -/
structure OnlyRes (s t : State) : Prop where
  cfg : t.cfg = s.cfg
  reg : ∀ p, t.getReg p = s.getReg p
  active : t.active = s.active
  mem : ∀ sp a, t.memRead sp a = s.memRead sp a
  port : t.port = s.port
  ok : Succeeded s t

/-- The frame of the symbol commands: they write both registers, F and INV (RES is said apart); the
session stays active, and NONCE and the inputs are as they were. -/
structure OnlySession (s t : State) : Prop where
  cfg : t.cfg = s.cfg
  active : t.active = s.active
  nonce : ∀ a, t.memRead .nonces a = s.memRead .nonces a
  port : t.port = s.port
  ok : Succeeded s t

/-! ## Which command raises what (R201, R203) -/

/-- BEGIN_SESSION and the five LFSR commands that change a register: they need no active session (R207). -/
def needsIdle : Instr → Bool
  | .lfsrInit _ _ | .lfsrStepFwd _ | .lfsrStepBwd _ | .lfsrNextByte _ | .lfsrPrevByte _
  | .beginSession _ => true
  | .lfsrRead _ | .nonceWr _ _ | .endSession | .encryptSym _ | .decryptSym _ | .update _
  | .tblRdFwd _ | .tblRdInv _ => false

/-- The symbol family and END_SESSION: they need an active session (R160, R206). -/
def needsSession : Instr → Bool
  | .endSession | .encryptSym _ | .decryptSym _ | .update _ | .tblRdFwd _ | .tblRdInv _ => true
  | .lfsrInit _ _ | .lfsrStepFwd _ | .lfsrStepBwd _ | .lfsrNextByte _ | .lfsrPrevByte _ | .lfsrRead _
  | .nonceWr _ _ | .beginSession _ => false

/-- The register a command reads, of those that check its valid flag (R100 (b), R208). -/
def checkedReg : Instr → Option Reg
  | .lfsrStepFwd sel | .lfsrStepBwd sel | .lfsrNextByte sel | .lfsrPrevByte sel | .lfsrRead sel => some sel
  | .lfsrInit _ _ | .nonceWr _ _ | .beginSession _ | .endSession | .encryptSym _ | .decryptSym _
  | .update _ | .tblRdFwd _ | .tblRdInv _ => none

/-- The column "raised by" of R201, for the conditions a decoded command can meet. -/
def mayRaise : Error → Instr → Bool
  | .invalidSeed, .lfsrInit _ _ | .invalidSeed, .beginSession _ => true
  | .invalidTaps, .lfsrInit _ _ | .invalidTaps, .beginSession _ => true
  | .sessionNotActive, i => needsSession i
  | .sessionAlreadyActive, i => needsIdle i
  | .regNotInit, i => (checkedReg i).isSome
  | .illegalCmd, _ => false
  | _, _ => false

/-- The commands that write RES (R28). -/
def writesRes : Instr → Bool
  | .lfsrNextByte _ | .lfsrRead _ | .encryptSym _ | .decryptSym _ | .tblRdFwd _ | .tblRdInv _ => true
  | .lfsrInit _ _ | .lfsrStepFwd _ | .lfsrStepBwd _ | .lfsrPrevByte _ | .nonceWr _ _ | .beginSession _
  | .endSession | .update _ => false

/-! ## The taps, in the words of R12 -/

/-- `XOR_{t in T} s[t]` over the taps `t` of a list of positions (R12, R103, R104). -/
def tapXor {w : Nat} (taps s : BitVec w) (positions : List Nat) : Bool :=
  (positions.filter fun t => taps.getLsbD t).foldl (fun b t => b ^^ s.getLsbD t) false

/-! ## Runs -/

/-- The commands one after another: RES after each, and the state at the end; `none` if one stops. -/
def runCommands : List Instr → State → Option (List (BitVec 32) × State)
  | [], s => some ([], s)
  | i :: is, s =>
    match exec i s with
    | .next t => (runCommands is t).map fun p => (t.res :: p.1, p.2)
    | _ => none

/-- Whether a command takes a symbol position (R168). -/
def isSymbolCommand : Instr → Bool
  | .encryptSym _ | .decryptSym _ | .update _ => true
  | .lfsrInit _ _ | .lfsrStepFwd _ | .lfsrStepBwd _ | .lfsrNextByte _ | .lfsrPrevByte _ | .lfsrRead _
  | .nonceWr _ _ | .beginSession _ | .endSession | .tblRdFwd _ | .tblRdInv _ => false

end Sys2Proof.Machine
end

