-- ==== Sys2Proof/Certificates/Slice0/Obligations.lean ====
section
/-! DEFINITION. The statements for the provers. Each docstring names the rules of spec/ it comes from. -/

open Sys2Proof Sys2Proof.Machine

/-! ## Encoding (30_encoding) -/

/-- R62, R66, R69: every command's word decodes to that command, whatever its operands. -/
def Obligations.DecodeEncodeRoundTrip : Prop :=
  ∀ i : Instr, i.wellFormed = true → decode (encode i) = .ok i

/-- R66, R67, R69: a word has a meaning in one spelling only: it is the word of the command it decodes to. -/
def Obligations.DecodedWordIsTheCommandsWord : Prop :=
  ∀ (w : Cmd) (i : Instr), decode w = .ok i → encode i = w

/-- R66, R62: sample words, written out from the encoding. -/
def Obligations.SampleWordsDecode : Prop :=
  decode 0x1001000000012345 = .ok (.lfsrInit .r32 0x12345) ∧
    decode 0x1500000000000000 = .ok (.lfsrRead .r17) ∧
    decode 0x2005AA0000000000 = .ok (.nonceWr 0x05 0xAA) ∧
    decode 0x2100000123456789 = .ok (.beginSession 0x0123456789) ∧
    decode 0x2443000000000000 = .ok (.decryptSym 0x43)

/-- R67: a word whose OPC is in the map, with a 1 in a bit that its row's mask covers and its match leaves
0, executes nothing and raises ILLEGAL_CMD. -/
def Obligations.ReservedBitsRaiseIllegalCmd : Prop :=
  ∀ r ∈ opcodeMap, ∀ (w : Cmd) (s : State), w.opc = r.value.opc →
    (∃ k, w.getLsbD k = true ∧ r.mask.getLsbD k = true ∧ r.value.getLsbD k = false) →
    ∃ t, accept (.command w) s = .next t ∧ Failed .illegalCmd s t

/-- R68: every opcode outside the map raises ILLEGAL_CMD. -/
def Obligations.UndefinedOpcodesRaiseIllegalCmd : Prop :=
  ∀ (w : Cmd) (s : State),
    (w.opc.toNat ≤ 0x0F ∨ (0x16 ≤ w.opc.toNat ∧ w.opc.toNat ≤ 0x1F) ∨ 0x28 ≤ w.opc.toNat) →
    ∃ t, accept (.command w) s = .next t ∧ Failed .illegalCmd s t

/-- R45, R46: a command word carried as bytes is most significant byte first; fewer than eight bytes are no
command. -/
def Obligations.CommandBytesAreMostSignificantFirst : Prop :=
  (∀ (w : Cmd) (rest : List Byte),
    decodeBytes (w.toBytes ++ rest) = (decode w).map (fun i => (i, rest)) ∧
      ∀ k < 8, w.toBytes[k]? = some (w.extractLsb' (8 * (7 - k)) 8)) ∧
  ∀ bytes : List Byte, bytes.length < 8 → decodeBytes bytes = .error .partialWord

/-- R72, R73: an assembler takes exactly the lines whose operands fit (that an empty string of symbols is
refused is the model's choice, log entry 13). -/
def Obligations.AssemblerTakesExactlyTheLinesThatFit : Prop :=
  ∀ l : AsmLine, (assemble l).isSome = l.wellFormed

/-- R72: no assembled word has a nonzero reserved bit, so each is a command. -/
def Obligations.AssembledWordsAreCommands : Prop :=
  ∀ (l : AsmLine) (inputs : List HostInput), assemble l = some inputs →
    ∀ w, .command w ∈ inputs → ∃ i, decode w = .ok i

/-! ## The step and the host (00_scope, 10_state, 60_exceptions, 70_reset_and_hazards) -/

/-- R7, R69: a step takes the host's next word from the port (the model's form of the command port, log
entry 1) and executes the command it decodes to. -/
def Obligations.StepRunsTheDecodedCommand : Prop :=
  ∀ (s : State) (w : Cmd) (rest : List HostInput) (i : Instr),
    s.port = .command w :: rest → decode w = .ok i → step s = exec i { s with port := rest }

/-- R209: a word that decodes to no command raises ILLEGAL_CMD and changes nothing but STATUS. -/
def Obligations.StepReportsIllegalWords : Prop :=
  ∀ (s : State) (w : Cmd) (rest : List HostInput) (e : Illegal),
    s.port = .command w :: rest → decode w = .error e →
    ∃ t, step s = .next t ∧ Failed .illegalCmd { s with port := rest } t

/-- R28, R29, R48: a host read of RES or STATUS has no side effect. R231: with no command to accept the
block waits, unchanged (the model's reading of it, log entry 6). -/
def Obligations.HostReadsAndWaitingChangeNothing : Prop :=
  (∀ (s : State) (r : HostReg) (rest : List HostInput), s.port = .read r :: rest →
    step s = .next { s with port := rest }) ∧
  (∀ s : State, s.port = [] → step s = .next s) ∧
  ∀ s : State, s.hostRead .res = s.res ∧ s.hostRead .status = s.status

/-- R230: reset sets every element to its reset value and leaves the configuration. -/
def Obligations.ResetInputSetsEveryElement : Prop :=
  ∀ (s : State) (rest : List HostInput), s.port = .reset :: rest →
    ∃ t, step s = .next t ∧ t.cfg = s.cfg ∧ (∀ sel, t.getReg sel = none) ∧
      t.v17 = false ∧ t.v32 = false ∧ t.active = false ∧ t.res = 0 ∧ t.status = 0 ∧
      ∀ a, t.memRead .fwd a = none ∧ t.memRead .invs a = none ∧ t.memRead .nonces a = some 0

/-- R34: the state right after reset; what holds no value cannot be read without an error. -/
def Obligations.ResetStateIsAsStated : Prop :=
  (∀ sel, State.reset.getReg sel = none) ∧ State.reset.v17 = false ∧ State.reset.v32 = false ∧
    State.reset.active = false ∧ State.reset.res = 0 ∧ State.reset.status = 0 ∧
    (∀ a, State.reset.memRead .fwd a = none ∧ State.reset.memRead .invs a = none ∧
      State.reset.memRead .nonces a = some 0) ∧
    (∀ sel, ∃ t, exec (.lfsrRead sel) State.reset = .next t ∧ Failed .regNotInit State.reset t) ∧
    ∀ a, ∃ t u, exec (.tblRdFwd a) State.reset = .next t ∧ Failed .sessionNotActive State.reset t ∧
      exec (.tblRdInv a) State.reset = .next u ∧ Failed .sessionNotActive State.reset u

/-- R29: the layout of STATUS; the reserved bits read 0. -/
def Obligations.StatusLayout : Prop :=
  ∀ s : State,
    s.status.getLsbD 0 = s.active ∧ s.status.getLsbD 1 = s.v17 ∧ s.status.getLsbD 2 = s.v32 ∧
      s.status.getLsbD 3 = s.sticky ∧ s.status.extractLsb' 4 4 = 0 ∧
      s.status.extractLsb' 8 4 = s.errCode ∧ s.status.extractLsb' 12 20 = 0

/-- R201: the codes STATUS.ERR shows; 7 to 15 are never written. -/
def Obligations.ErrorCodesAreAsTabled : Prop :=
  ∀ s : State, s.errCode.toNat ≤ 6 ∧
    (s.errCode = 0 ↔ s.err = none) ∧ (s.errCode = 1 ↔ s.err = some .invalidSeed) ∧
    (s.errCode = 2 ↔ s.err = some .invalidTaps) ∧ (s.errCode = 3 ↔ s.err = some .sessionNotActive) ∧
    (s.errCode = 4 ↔ s.err = some .sessionAlreadyActive) ∧
    (s.errCode = 5 ↔ s.err = some .regNotInit) ∧ (s.errCode = 6 ↔ s.err = some .illegalCmd)

/-- R200, R241: the block never stops: whatever the state, the next command is accepted (with no command
there is a next state too, the model's choice of log entry 6). -/
def Obligations.EveryStepAnswersANextState : Prop := ∀ s : State, ∃ t, step s = .next t

/-- R25, R26, R30, R101, R160, R167, R204: every step keeps the invariant of the block (its clause on the
canonical form of the arrays is the model's choice, log entry 9). -/
def Obligations.StepKeepsTheBlockConsistent : Prop :=
  ∀ s t : State, s.Inv → step s = .next t → t.Inv

/-- The state right after reset meets the invariant. -/
def Obligations.ResetStateIsConsistent : Prop := State.reset.Inv

/-- R8, R230: no command and no reset changes the configuration. -/
def Obligations.ConfigurationNeverChanges : Prop :=
  ∀ s t : State, step s = .next t → t.cfg = s.cfg

/-- R30: every command the block accepts writes ERR, 0 on success and the code on failure; STICKY is set by
every failing command and cleared only by reset. -/
def Obligations.ErrAndStickyAreWrittenAsStated : Prop :=
  (∀ (w : Cmd) (s t : State), accept (.command w) s = .next t →
    (t.err = none ∧ t.sticky = s.sticky) ∨ ∃ e, t.err = some e ∧ t.sticky = true) ∧
  (∀ s t : State, s.sticky = true → s.port.head? ≠ some .reset → step s = .next t → t.sticky = true) ∧
  ∀ s : State, ∃ t, accept .reset s = .next t ∧ t.sticky = false

/-- R202: a command that raises an error changes only ERR and STICKY. -/
def Obligations.FailingCommandsChangeOnlyStatus : Prop :=
  ∀ (w : Cmd) (s t : State) (e : Error), accept (.command w) s = .next t → t.err = some e →
    Failed e s t

/-- R201, the column "raised by": a command of the opcode map raises only the errors listed for it, in
every state that meets the invariant. -/
def Obligations.CommandsRaiseOnlyTheirErrors : Prop :=
  ∀ (i : Instr) (s t : State) (e : Error), s.Inv → exec i s = .next t → t.err = some e →
    mayRaise e i = true

/-- R203: exactly one code is reported, the first that applies: an illegal word; the session state; the tap
sets; the seed; the valid flag. -/
def Obligations.ErrorPriority : Prop :=
  (∀ (w : Cmd) (s : State) (x : Illegal), decode w = .error x →
    ∃ t, accept (.command w) s = .next t ∧ t.err = some .illegalCmd) ∧
  (∀ (i : Instr) (s : State), needsIdle i = true → s.active = true →
    ∃ t, exec i s = .next t ∧ t.err = some .sessionAlreadyActive) ∧
  (∀ (i : Instr) (s : State), needsSession i = true → s.active = false →
    ∃ t, exec i s = .next t ∧ t.err = some .sessionNotActive) ∧
  (∀ (sel : Reg) (seed : Imm) (s : State), s.active = false →
    ∃ t, exec (.lfsrInit sel seed) s = .next t ∧
      t.err = if tapsWellFormed (selTaps s.cfg sel) = false then some .invalidTaps
        else if seed = 0 ∨ 2 ^ sel.width - 1 < seed.toNat then some .invalidSeed else none) ∧
  (∀ (key : Imm) (s : State), s.active = false →
    ∃ t, exec (.beginSession key) s = .next t ∧
      t.err = if tapsWellFormed s.cfg.taps17 = false ∨ tapsWellFormed s.cfg.taps32 = false
        then some .invalidTaps
        else if s.cfg.prefix32 = 0 ∧ key.toNat < 2 ^ 16 then some .invalidSeed else none) ∧
  (∀ (i : Instr) (sel : Reg) (s : State), checkedReg i = some sel →
    (needsIdle i = true → s.active = false) → s.getReg sel = none →
    ∃ t, exec i s = .next t ∧ t.err = some .regNotInit)

/-- R27: only NONCE_WR and reset change NONCE: no other input of the host does. -/
def Obligations.NonceIsWrittenOnlyByNonceWrAndReset : Prop :=
  ∀ s t : State, step s = .next t → s.port.head? ≠ some .reset →
    (∀ w idx val, s.port.head? = some (.command w) → decode w ≠ .ok (.nonceWr idx val)) →
    ∀ a, t.memRead .nonces a = s.memRead .nonces a

/-- R28: no other command writes RES, and no failing command does. -/
def Obligations.ResIsWrittenOnlyByItsCommands : Prop :=
  ∀ (i : Instr) (s t : State), exec i s = .next t → writesRes i = false ∨ t.err ≠ none →
    t.res = s.res

/-! ## The LFSR commands (40_lfsr) -/

/-- R102: what LFSR_INIT leaves when its checks pass. -/
def Obligations.LfsrInitLoadsTheSeed : Prop :=
  ∀ (sel : Reg) (seed : Imm) (s : State), s.active = false →
    tapsWellFormed (selTaps s.cfg sel) = true → seed ≠ 0 → seed.toNat ≤ 2 ^ sel.width - 1 →
    ∃ t x, exec (.lfsrInit sel seed) s = .next t ∧ t.getReg sel = some x ∧ x.toNat = seed.toNat ∧
      t.res = s.res ∧ OnlyReg sel s t

/-- R103, R105: LFSR_STEP_FWD shifts the register left by one bit, and the XOR of the bits at the taps enters
at bit 0. -/
def Obligations.LfsrStepFwdShiftsInTheFeedback : Prop :=
  ∀ (sel : Reg) (s : State) (x : BitVec sel.width), s.active = false → s.getReg sel = some x →
    ∃ t y, exec (.lfsrStepFwd sel) s = .next t ∧ t.getReg sel = some y ∧
      y.toNat = ((x.toNat <<< 1) |||
        (tapXor (selTaps s.cfg sel) x (List.range sel.width)).toNat) &&& (2 ^ sel.width - 1) ∧
      t.res = s.res ∧ OnlyReg sel s t

/-- R104, R108: LFSR_STEP_BWD shifts the register right by one bit, and the bit that was shifted out enters
at the top: the feedback bit XOR the bits at the other taps. -/
def Obligations.LfsrStepBwdRecoversThePredecessor : Prop :=
  ∀ (sel : Reg) (s : State) (x : BitVec sel.width), s.active = false → s.getReg sel = some x →
    ∃ t y, exec (.lfsrStepBwd sel) s = .next t ∧ t.getReg sel = some y ∧
      y.toNat = ((x.getLsbD 0 ^^
          tapXor (selTaps s.cfg sel) (x >>> 1) (List.range (sel.width - 1))).toNat
            <<< (sel.width - 1)) ||| (x.toNat >>> 1) ∧
      t.res = s.res ∧ OnlyReg sel s t

/-- R106, R109: LFSR_NEXT_BYTE writes the low 8 bits, taken before the steps, to RES, and steps the register
forward exactly 8 times. -/
def Obligations.LfsrNextByteReturnsTheLowByte : Prop :=
  ∀ (sel : Reg) (s : State) (x : BitVec sel.width), s.active = false → s.getReg sel = some x →
    ∃ t, exec (.lfsrNextByte sel) s = .next t ∧ t.res.toNat = x.toNat % 256 ∧
      t.getReg sel = some ((fwdStep (selTaps s.cfg sel))^[8] x) ∧ OnlyReg sel s t

/-- R107, R110: LFSR_PREV_BYTE steps the register backward exactly 8 times and returns nothing. -/
def Obligations.LfsrPrevByteStepsBackEightTimes : Prop :=
  ∀ (sel : Reg) (s : State) (x : BitVec sel.width), s.active = false → s.getReg sel = some x →
    ∃ t, exec (.lfsrPrevByte sel) s = .next t ∧ t.res = s.res ∧
      t.getReg sel = some ((bwdStep (selTaps s.cfg sel))^[8] x) ∧ OnlyReg sel s t

/-- R111: LFSR_READ writes the register's value to RES, in any session state, and changes nothing else. -/
def Obligations.LfsrReadReturnsTheRegister : Prop :=
  ∀ (sel : Reg) (s : State) (x : BitVec sel.width), s.getReg sel = some x →
    ∃ t, exec (.lfsrRead sel) s = .next t ∧ t.res.toNat = x.toNat ∧ OnlyRes s t

/-- R112: a backward step undoes a forward step, and a forward step a backward one, so the forward step is
a bijection; both map 0 to 0. -/
def Obligations.StepsAreInverse : Prop :=
  ∀ (w : Nat) (taps : BitVec w), tapsWellFormed taps = true →
    (∀ s, bwdStep taps (fwdStep taps s) = s ∧ fwdStep taps (bwdStep taps s) = s) ∧
      Function.Bijective (fwdStep taps) ∧ fwdStep taps 0 = 0 ∧ bwdStep taps 0 = 0

/-- R113: a step leads from no nonzero state to 0: forward, the state with only the top bit set steps to 1;
backward, 0 is the image of 0 alone. -/
def Obligations.StepsKeepTheStateNonzero : Prop :=
  ∀ (w : Nat) (taps : BitVec w), tapsWellFormed taps = true →
    (∀ s, s ≠ 0 → fwdStep taps s ≠ 0 ∧ bwdStep taps s ≠ 0) ∧ fwdStep taps (1#w <<< (w - 1)) = 1#w

/-- R114: without w-1 in the tap set, two states that differ in the top bit have the same successor, and the
forward step has no inverse; an empty tap set makes the feedback always 0. -/
def Obligations.StepWithoutTheTopTapIsNotInvertible : Prop :=
  (∀ (w : Nat) (taps s : BitVec w), 0 < w → taps.getLsbD (w - 1) = false →
    fwdStep taps (s ^^^ (1#w <<< (w - 1))) = fwdStep taps s ∧ ¬ Function.Injective (fwdStep taps)) ∧
  ∀ (w : Nat) (s : BitVec w), feedback 0#w s = false

/-- R115: both steps are linear over GF(2). -/
def Obligations.StepsAreLinear : Prop :=
  ∀ (w : Nat) (taps a b : BitVec w),
    fwdStep taps (a ^^^ b) = fwdStep taps a ^^^ fwdStep taps b ∧
      bwdStep taps (a ^^^ b) = bwdStep taps a ^^^ bwdStep taps b

/-- R116: after a byte draw, bits w-1..8 are the old bits w-9..0, and bits 7..0 are the eight feedback bits,
the first of them at bit 7. -/
def Obligations.ByteWindowAfterADraw : Prop :=
  ∀ (w : Nat) (taps s : BitVec w), 8 ≤ w →
    (∀ k, k + 8 < w → (nextByteState taps s).getLsbD (k + 8) = s.getLsbD k) ∧
      ∀ j < 8, (nextByteState taps s).getLsbD (7 - j) = feedback taps (fwdSteps taps j s)

/-- R117: the byte undo after the byte draw restores the register, whose low byte is the byte returned. -/
def Obligations.ByteUndoRestoresTheRegister : Prop :=
  ∀ (sel : Reg) (s : State) (x : BitVec sel.width), s.active = false → s.getReg sel = some x →
    tapsWellFormed (selTaps s.cfg sel) = true →
    ∃ t u, exec (.lfsrNextByte sel) s = .next t ∧ exec (.lfsrPrevByte sel) t = .next u ∧
      u.getReg sel = some x ∧ u.res.toNat = x.toNat % 256

/-- R118: R32 at the fourth of four draws is their bytes, the first drawn in bits 31:24. -/
def Obligations.FourDrawsSpellTheRegister : Prop :=
  ∀ (taps s : BitVec 32),
    let s1 := nextByteState taps s
    let s2 := nextByteState taps s1
    let s3 := nextByteState taps s2
    s3 = lowByte s ++ lowByte s1 ++ lowByte s2 ++ lowByte s3

/-- R119: after n byte draws and then k byte undos a register is `8(n-k)` steps from its seed, forward or
backward. -/
def Obligations.RegisterOffsetAfterDrawsAndUndos : Prop :=
  ∀ (sel : Reg) (s : State) (seed : BitVec sel.width) (n k : Nat), s.active = false →
    s.getReg sel = some seed → tapsWellFormed (selTaps s.cfg sel) = true →
    ∃ rs t, runCommands (List.replicate n (.lfsrNextByte sel) ++ List.replicate k (.lfsrPrevByte sel)) s
        = some (rs, t) ∧
      t.getReg sel = some (if k ≤ n then fwdSteps (selTaps s.cfg sel) (8 * (n - k)) seed
        else bwdSteps (selTaps s.cfg sel) (8 * (k - n)) seed)

/-! ## The session commands (41_sbox_session) -/

/-- R131: NONCE_WR writes one byte of NONCE, in every session state, and nothing else. -/
def Obligations.NonceWrWritesOneByte : Prop :=
  ∀ (idx val : Byte) (s : State), ∃ t, exec (.nonceWr idx val) s = .next t ∧
    t.memRead .nonces idx = some val ∧
    (∀ a, a ≠ idx → t.memRead .nonces a = s.memRead .nonces a) ∧
    (∀ a, t.memRead .fwd a = s.memRead .fwd a ∧ t.memRead .invs a = s.memRead .invs a) ∧
    (∀ sel, t.getReg sel = s.getReg sel) ∧ t.active = s.active ∧ t.cfg = s.cfg ∧ t.res = s.res ∧
    t.port = s.port ∧ Succeeded s t

/-- R132, R133: the seeds a key splits into. -/
def Obligations.KeySplitsIntoTheSeeds : Prop :=
  ∀ (c : Config) (key : Imm),
    (seed17 key).toNat = (1 <<< 16) ||| (key.toNat % 2 ^ 16) ∧
      0x10000 ≤ (seed17 key).toNat ∧ (seed17 key).toNat ≤ 0x1FFFF ∧
      (seed32 c key).toNat = (c.prefix32.toNat <<< 24) ||| (key.toNat >>> 16) ∧
      (c.prefix32 ≠ 0 → seed32 c key ≠ 0)

/-- R134: the two seeds give the key back. -/
def Obligations.SeedsGiveTheKeyBack : Prop :=
  ∀ (c : Config) (key : Imm),
    key.toNat = (((seed32 c key).toNat % 2 ^ 24) <<< 16) ||| ((seed17 key).toNat % 2 ^ 16)

/-- R136, R137: one step of the shuffle draws `j = draw() mod (i+1)`, which lies in `[0, i]`, and swaps
entries i and j; the shuffle runs these steps for i = 255 down to 1. -/
def Obligations.ShuffleSwapsWithTheDrawnIndex : Prop :=
  (∀ (c : Config) (i : Nat) (b : Build), 1 ≤ i → i ≤ 255 →
    ∃ j : Byte, j.toNat = ((lowByte b.regs.r17).toNat ^^^ (lowByte b.regs.r32).toNat) % (i + 1) ∧
      j.toNat ≤ i ∧
      (∀ x : Byte, Memory.read (shuffleStep c i b).fwd x =
        if x.toNat = i then Memory.read b.fwd j else if x = j then Memory.read b.fwd (BitVec.ofNat 8 i)
        else Memory.read b.fwd x) ∧
      (shuffleStep c i b).regs =
        ⟨fwdSteps c.taps17 8 b.regs.r17, fwdSteps c.taps32 8 b.regs.r32⟩) ∧
  ∀ (c : Config) (b : Build),
    shuffleFrom c 255 b = ((List.range 255).map (255 - ·)).foldl (fun b i => shuffleStep c i b) b

/-- R138: how many of the 256 byte values each residue of the drawn index has. -/
def Obligations.ShuffleIndexBias : Prop :=
  ∀ i r : Nat, i ≤ 255 → r ≤ i →
    addresses.countP (fun x => (shuffleIndex x i).toNat == r) =
      256 / (i + 1) + if r < 256 % (i + 1) then 1 else 0

/-- R140: one iteration of NONCE_MIX_DEFAULT: `j = (j + F[i] + NONCE[i] + draw()) mod 256`, then entries i
and j are swapped; the pass runs them for i = 0 to 255 from j = 0. -/
def Obligations.DefaultNoncePassStep : Prop :=
  (∀ (c : Config) (nonce : Memory) (j i : Byte) (b : Build),
    ∃ j' : Byte, (defaultMixStep c nonce (j, b) i).1 = j' ∧
      j'.toNat = (j.toNat + (Memory.read b.fwd i).toNat + (Memory.read nonce i).toNat +
        ((lowByte b.regs.r17).toNat ^^^ (lowByte b.regs.r32).toNat)) % 256 ∧
      (∀ x, Memory.read (defaultMixStep c nonce (j, b) i).2.fwd x =
        if x = i then Memory.read b.fwd j' else if x = j' then Memory.read b.fwd i
        else Memory.read b.fwd x) ∧
      (defaultMixStep c nonce (j, b) i).2.regs =
        ⟨fwdSteps c.taps17 8 b.regs.r17, fwdSteps c.taps32 8 b.regs.r32⟩) ∧
  ∀ (c : Config) (nonce : Memory) (b : Build), c.nonceMix = .defaultPass →
    nonceMix c nonce b =
      (((List.range 256).map (BitVec.ofNat 8)).foldl (defaultMixStep c nonce) (0, b)).2

/-- R139 (b), (c), R10: whichever nonce-mixing pass is configured, it leaves F a permutation and advances
each register by exactly `8 * NONCE_DRAWS` forward steps (the platform's pass is the model's form of an open
parameter, log entry 4). -/
def Obligations.NoncePassKeepsItsContract : Prop :=
  ∀ (c : Config) (nonce : Memory) (b : Build),
    (Memory.Permutation b.fwd → Memory.Permutation (nonceMix c nonce b).fwd) ∧
      (nonceMix c nonce b).regs =
        ⟨fwdSteps c.taps17 (8 * nonceDraws c.nonceMix) b.regs.r17,
          fwdSteps c.taps32 (8 * nonceDraws c.nonceMix) b.regs.r32⟩

/-- R141: after the rebuild, INV is the exact inverse of a permutation F. -/
def Obligations.RebuiltInverseIsExact : Prop :=
  ∀ fwd : Memory, Memory.Permutation fwd → Tables.Inverse ⟨fwd, rebuildInv fwd⟩

/-- R135, R142: BEGIN_SESSION starts a session: both registers at their seeds' offset `8 * INIT_DRAWS`, F a
permutation and INV its inverse; RES and NONCE are as they were. -/
def Obligations.BeginSessionStartsASession : Prop :=
  ∀ (key : Imm) (s : State), s.active = false → tapsWellFormed s.cfg.taps17 = true →
    tapsWellFormed s.cfg.taps32 = true → (s.cfg.prefix32 ≠ 0 ∨ 2 ^ 16 ≤ key.toNat) →
    ∃ t tb, exec (.beginSession key) s = .next t ∧
      t.r17 = some (fwdSteps s.cfg.taps17 (8 * initDraws s.cfg) (seed17 key)) ∧
      t.r32 = some (fwdSteps s.cfg.taps32 (8 * initDraws s.cfg) (seed32 s.cfg key)) ∧
      t.tables = some tb ∧ tb.Inverse ∧ Memory.Permutation tb.fwd ∧
      tb.fwd = (nonceMix s.cfg s.nonce
        (shuffleFrom s.cfg 255 ⟨⟨seed17 key, seed32 s.cfg key⟩, Memory.identity⟩)).fwd ∧
      (∀ a, t.memRead .nonces a = s.memRead .nonces a) ∧ t.cfg = s.cfg ∧ t.res = s.res ∧
      t.port = s.port ∧ Succeeded s t

/-- R143: END_SESSION clears ACTIVE, V17 and V32, so nothing it invalidates holds a value; RES and NONCE are
as they were. -/
def Obligations.EndSessionInvalidatesEverything : Prop :=
  ∀ s : State, s.active = true →
    ∃ t, exec .endSession s = .next t ∧ t.active = false ∧ (∀ sel, t.getReg sel = none) ∧
      (∀ a, t.memRead .fwd a = none ∧ t.memRead .invs a = none ∧
        t.memRead .nonces a = s.memRead .nonces a) ∧
      t.cfg = s.cfg ∧ t.res = s.res ∧ t.port = s.port ∧ Succeeded s t

/-! ## The symbol commands (42_sbox_symbol) -/

/-- R161, R162: ENCRYPT_SYM returns the entry before the update, then swaps entries V and i and keeps INV the
inverse; both registers advance 8 steps. -/
def Obligations.EncryptSymLooksUpThenUpdates : Prop :=
  ∀ (v : Byte) (s : State) (a : BitVec 17) (b : BitVec 32) (tb : Tables),
    s.r17 = some a → s.r32 = some b → s.tables = some tb →
    ∃ t, exec (.encryptSym v) s = .next t ∧ t.res = (Memory.read tb.fwd v).setWidth 32 ∧
      (∀ x, t.memRead .fwd x =
        some (if x = lowByte a ^^^ lowByte b then Memory.read tb.fwd v
          else if x = v then Memory.read tb.fwd (lowByte a ^^^ lowByte b) else Memory.read tb.fwd x)) ∧
      (∀ y, t.memRead .invs y =
        some (if y = Memory.read tb.fwd v then lowByte a ^^^ lowByte b
          else if y = Memory.read tb.fwd (lowByte a ^^^ lowByte b) then v else Memory.read tb.inv y)) ∧
      t.r17 = some (fwdSteps s.cfg.taps17 8 a) ∧ t.r32 = some (fwdSteps s.cfg.taps32 8 b) ∧
      OnlySession s t

/-- R161, R163: DECRYPT_SYM returns `v = INV[C]` and updates with that plaintext, never with C. -/
def Obligations.DecryptSymUpdatesWithThePlaintext : Prop :=
  ∀ (c : Byte) (s : State) (a : BitVec 17) (b : BitVec 32) (tb : Tables),
    s.r17 = some a → s.r32 = some b → s.tables = some tb →
    ∃ t v, exec (.decryptSym c) s = .next t ∧ v = Memory.read tb.inv c ∧ t.res = v.setWidth 32 ∧
      (∀ x, t.memRead .fwd x =
        some (if x = lowByte a ^^^ lowByte b then Memory.read tb.fwd v
          else if x = v then Memory.read tb.fwd (lowByte a ^^^ lowByte b) else Memory.read tb.fwd x)) ∧
      (∀ y, t.memRead .invs y =
        some (if y = Memory.read tb.fwd v then lowByte a ^^^ lowByte b
          else if y = Memory.read tb.fwd (lowByte a ^^^ lowByte b) then v else Memory.read tb.inv y)) ∧
      t.r17 = some (fwdSteps s.cfg.taps17 8 a) ∧ t.r32 = some (fwdSteps s.cfg.taps32 8 b) ∧
      OnlySession s t

/-- R164: UPDATE V has the effect of ENCRYPT_SYM V, except that RES is unchanged. -/
def Obligations.UpdateIsEncryptWithoutTheResult : Prop :=
  ∀ (v : Byte) (s : State) (a : BitVec 17) (b : BitVec 32) (tb : Tables),
    s.r17 = some a → s.r32 = some b → s.tables = some tb →
    ∃ t u, exec (.update v) s = .next t ∧ exec (.encryptSym v) s = .next u ∧
      t.res = s.res ∧ u = { t with res := (Memory.read tb.fwd v).setWidth 32 } ∧ OnlySession s t

/-- R165, R166: the table reads return their entry, draw nothing, and change nothing but RES and ERR. -/
def Obligations.TableReadsReturnTheEntry : Prop :=
  ∀ (idx : Byte) (s : State) (tb : Tables), s.tables = some tb →
    (∃ t, exec (.tblRdFwd idx) s = .next t ∧ t.res = (Memory.read tb.fwd idx).setWidth 32 ∧
      OnlyRes s t) ∧
    ∃ t, exec (.tblRdInv idx) s = .next t ∧ t.res = (Memory.read tb.inv idx).setWidth 32 ∧ OnlyRes s t

/-- R167: the update keeps F a permutation and INV its exact inverse, for every drawn index. -/
def Obligations.UpdateKeepsTheTablesInverse : Prop :=
  ∀ (t : Tables) (v i : Byte), t.Inverse →
    (t.update v i).Inverse ∧ Memory.Permutation (t.update v i).fwd

/-- R168: after BEGIN_SESSION and any commands but END_SESSION, p of them symbol commands, the registers are
at offset `8 * (INIT_DRAWS + p)` from their seeds. -/
def Obligations.SessionRegisterOffset : Prop :=
  ∀ (key : Imm) (s a : State) (cmds : List Instr), s.active = false →
    exec (.beginSession key) s = .next a → a.active = true → .endSession ∉ cmds →
    ∃ rs u, runCommands cmds a = some (rs, u) ∧ u.active = true ∧
      u.r17 = some (fwdSteps s.cfg.taps17
        (8 * (initDraws s.cfg + cmds.countP isSymbolCommand)) (seed17 key)) ∧
      u.r32 = some (fwdSteps s.cfg.taps32
        (8 * (initDraws s.cfg + cmds.countP isSymbolCommand)) (seed32 s.cfg key))

/-- R169: what a session draws depends on KEY, the configuration and the position alone: not on NONCE, the
table or the symbols. -/
def Obligations.DrawsDoNotDependOnData : Prop :=
  ∀ (key : Imm) (s s' a a' : State) (cmds cmds' : List Instr), s.active = false → s'.active = false →
    s.cfg = s'.cfg → exec (.beginSession key) s = .next a → exec (.beginSession key) s' = .next a' →
    a.active = true → a'.active = true → .endSession ∉ cmds → .endSession ∉ cmds' →
    cmds.countP isSymbolCommand = cmds'.countP isSymbolCommand →
    ∃ rs rs' u u' x x', runCommands cmds a = some (rs, u) ∧ runCommands cmds' a' = some (rs', u') ∧
      u.session = .ok x ∧ u'.session = .ok x' ∧ x.regs.drawByte = x'.regs.drawByte ∧ x.regs = x'.regs

/-- R170: decrypting in a session with the same KEY and NONCE gives the message back, and both sessions end
with the same registers and tables. -/
def Obligations.DecryptionUndoesEncryption : Prop :=
  ∀ (key : Imm) (s s' a a' : State) (msg : List Byte), s.active = false → s'.active = false →
    s.cfg = s'.cfg → (∀ x, s.memRead .nonces x = s'.memRead .nonces x) →
    exec (.beginSession key) s = .next a → exec (.beginSession key) s' = .next a' →
    a.active = true → a'.active = true →
    ∃ (cipher : List Byte) (u u' : State),
      runCommands (msg.map .encryptSym) a = some (cipher.map (BitVec.setWidth 32), u) ∧
        runCommands (cipher.map .decryptSym) a' = some (msg.map (BitVec.setWidth 32), u') ∧
        u.r17 = u'.r17 ∧ u.r32 = u'.r32 ∧
        ∀ x, u.memRead .fwd x = u'.memRead .fwd x ∧ u.memRead .invs x = u'.memRead .invs x

/-- R171, R172: the update leaves F and INV unchanged exactly when the drawn index is v; otherwise entries v
and i have changed places, and F[v] is another value. -/
def Obligations.UpdateFixedPoint : Prop :=
  ∀ (t : Tables) (v i : Byte), t.Inverse →
    (((∀ x, Memory.read (t.update v i).fwd x = Memory.read t.fwd x) ∧
      ∀ y, Memory.read (t.update v i).inv y = Memory.read t.inv y) ↔ i = v) ∧
    (i ≠ v → Memory.read (t.update v i).fwd v ≠ Memory.read t.fwd v ∧
      Memory.read (t.update v i).fwd v = Memory.read t.fwd i ∧
      Memory.read (t.update v i).fwd i = Memory.read t.fwd v ∧
      Memory.read (t.update v i).inv (Memory.read t.fwd v) = i ∧
      Memory.read (t.update v i).inv (Memory.read t.fwd i) = v ∧
      (∀ x, x ≠ v → x ≠ i → Memory.read (t.update v i).fwd x = Memory.read t.fwd x) ∧
      ∀ y, y ≠ Memory.read t.fwd v → y ≠ Memory.read t.fwd i →
        Memory.read (t.update v i).inv y = Memory.read t.inv y)

/-- R173: encrypting the same symbol twice in a row gives the same byte exactly when the first draw is that
symbol. -/
def Obligations.RepeatedPlaintextLeaksTheDraw : Prop :=
  ∀ (v : Byte) (s : State) (a : BitVec 17) (b : BitVec 32) (tb : Tables),
    s.r17 = some a → s.r32 = some b → s.tables = some tb → tb.Inverse →
    ∃ t u, exec (.encryptSym v) s = .next t ∧ exec (.encryptSym v) t = .next u ∧
      (t.res = u.res ↔ lowByte a ^^^ lowByte b = v)

/-- R174: decrypting the same byte twice in a row gives the same symbol exactly when the first draw is that
symbol, and the draw otherwise. -/
def Obligations.RepeatedCiphertextReturnsTheDraw : Prop :=
  ∀ (c : Byte) (s : State) (a : BitVec 17) (b : BitVec 32) (tb : Tables),
    s.r17 = some a → s.r32 = some b → s.tables = some tb → tb.Inverse →
    ∃ t u, exec (.decryptSym c) s = .next t ∧ exec (.decryptSym c) t = .next u ∧
      (u.res = t.res ↔ lowByte a ^^^ lowByte b = Memory.read tb.inv c) ∧
      (lowByte a ^^^ lowByte b ≠ Memory.read tb.inv c →
        u.res = (lowByte a ^^^ lowByte b).setWidth 32)
end

