-- ==== Sys2Proof/Laws/Encoding.lean ====
section
/-! SUPPORT. The four fields of a command word: packing them, reading them back, and masking field by field. -/

namespace Sys2Proof

/-- A bit of a packed word is a bit of the field it falls in (R61). -/
theorem Cmd.getLsbD_pack (o a b : Byte) (i : Imm) (k : Nat) :
    (Cmd.pack o a b i).getLsbD k =
      if k < 40 then i.getLsbD k else if k < 48 then b.getLsbD (k - 40)
      else if k < 56 then a.getLsbD (k - 48) else o.getLsbD (k - 56) := by
  simp only [Cmd.pack, BitVec.getLsbD_append]
  by_cases h1 : k < 40
  · simp [h1]
  · by_cases h2 : k < 48
    · simp [h1, h2, show k - 40 < 8 by omega]
    · by_cases h3 : k < 56
      · simp [h1, h2, h3, show ¬ k - 40 < 8 by omega, show k - 48 < 8 by omega,
          show k - 40 - 8 = k - 48 by omega]
      · simp [h1, h2, h3, show ¬ k - 40 < 8 by omega, show ¬ k - 40 - 8 < 8 by omega,
          show k - 40 - 8 - 8 = k - 56 by omega]

@[simp] theorem Cmd.opc_pack (o a b : Byte) (i : Imm) : (Cmd.pack o a b i).opc = o := by
  ext k hk
  rw [Cmd.opc, BitVec.getElem_extractLsb', Cmd.getLsbD_pack]
  simp [show ¬ 56 + k < 40 by omega, show ¬ 56 + k < 48 by omega, hk]

@[simp] theorem Cmd.a_pack (o a b : Byte) (i : Imm) : (Cmd.pack o a b i).a = a := by
  ext k hk
  rw [Cmd.a, BitVec.getElem_extractLsb', Cmd.getLsbD_pack]
  simp [show ¬ 48 + k < 40 by omega, show 48 + k < 56 by omega, hk]

@[simp] theorem Cmd.b_pack (o a b : Byte) (i : Imm) : (Cmd.pack o a b i).b = b := by
  ext k hk
  rw [Cmd.b, BitVec.getElem_extractLsb', Cmd.getLsbD_pack]
  simp [show 40 + k < 48 by omega, hk]

@[simp] theorem Cmd.imm_pack (o a b : Byte) (i : Imm) : (Cmd.pack o a b i).imm = i := by
  ext k hk
  rw [Cmd.imm, BitVec.getElem_extractLsb', Cmd.getLsbD_pack]
  simp [hk]

@[simp] theorem Cmd.sel_pack (o b : Byte) (sel : Reg) (i : Imm) :
    (Cmd.pack o sel.field b i).sel = sel := by
  rw [Cmd.sel, Cmd.getLsbD_pack]
  cases sel <;> simp [Reg.field]

/-- A word is its four fields (R61). -/
@[simp] theorem Cmd.pack_fields (w : Cmd) : Cmd.pack w.opc w.a w.b w.imm = w := by
  ext k hk
  rw [← BitVec.getLsbD_eq_getElem, ← BitVec.getLsbD_eq_getElem, Cmd.getLsbD_pack]
  simp only [Cmd.opc, Cmd.a, Cmd.b, Cmd.imm, BitVec.getLsbD_extractLsb']
  by_cases h1 : k < 40
  · simp [h1]
  · by_cases h2 : k < 48
    · simp [h1, h2, show k - 40 < 8 by omega, show 40 + (k - 40) = k by omega]
    · by_cases h3 : k < 56
      · simp [h1, h2, h3, show k - 48 < 8 by omega, show 48 + (k - 48) = k by omega]
      · simp [h1, h2, h3, show k - 56 < 8 by omega, show 56 + (k - 56) = k by omega]

/-- Two packed words are equal when their fields are. -/
theorem Cmd.pack_inj {o a b o' a' b' : Byte} {i i' : Imm} :
    Cmd.pack o a b i = Cmd.pack o' a' b' i' ↔ o = o' ∧ a = a' ∧ b = b' ∧ i = i' := by
  refine ⟨fun h => ⟨?_, ?_, ?_, ?_⟩, fun ⟨h1, h2, h3, h4⟩ => by rw [h1, h2, h3, h4]⟩
  · simpa using congrArg Cmd.opc h
  · simpa using congrArg Cmd.a h
  · simpa using congrArg Cmd.b h
  · simpa using congrArg Cmd.imm h

/-- Masking a word masks each field. -/
theorem Cmd.pack_and (o a b o' a' b' : Byte) (i i' : Imm) :
    Cmd.pack o a b i &&& Cmd.pack o' a' b' i' =
      Cmd.pack (o &&& o') (a &&& a') (b &&& b') (i &&& i') := by
  ext k hk
  rw [← BitVec.getLsbD_eq_getElem, ← BitVec.getLsbD_eq_getElem, BitVec.getLsbD_and]
  simp only [Cmd.getLsbD_pack, BitVec.getLsbD_and]
  by_cases h1 : k < 40
  · simp [h1]
  · by_cases h2 : k < 48
    · simp [h1, h2]
    · by_cases h3 : k < 56
      · simp [h1, h2, h3]
      · simp [h1, h2, h3]

/-- A word selects a row exactly when each of its fields does (R66). -/
theorem OpRow.selects_iff (r : OpRow) (w : Cmd) :
    r.selects w = true ↔
      w.opc &&& r.mask.opc = r.value.opc ∧ w.a &&& r.mask.a = r.value.a ∧
        w.b &&& r.mask.b = r.value.b ∧ w.imm &&& r.mask.imm = r.value.imm := by
  rw [OpRow.selects, beq_iff_eq]
  conv_lhs => rw [← Cmd.pack_fields w, ← Cmd.pack_fields r.mask, ← Cmd.pack_fields r.value]
  rw [Cmd.pack_and, Cmd.pack_inj]

/-- Every row's mask covers all of OPC, and its value's OPC is its own (R69). -/
theorem opcodeMap_mask_opc : ∀ r ∈ opcodeMap, r.mask.opc = 0xFF := by
  simp only [opcodeMap, lfsrRows, sessionRows, symbolRows, List.cons_append, List.nil_append,
    List.forall_mem_cons]
  decide

/-- The opcode of a word that selects a row is the row's (R69). -/
theorem opc_of_selects {r : OpRow} (hr : r ∈ opcodeMap) {w : Cmd} (h : r.selects w = true) :
    w.opc = r.value.opc := by
  have h1 := ((OpRow.selects_iff r w).1 h).1
  rwa [opcodeMap_mask_opc r hr, show (0xFF : Byte) = BitVec.allOnes 8 by decide,
    BitVec.and_allOnes] at h1

/-- The rows have distinct opcodes (R69). -/
theorem opcodeMap_opc_nodup : (opcodeMap.map fun r => r.value.opc).Nodup := by decide

/-- At most one row matches a word (R69). -/
theorem row_unique {r q : OpRow} (hr : r ∈ opcodeMap) (hq : q ∈ opcodeMap) {w : Cmd}
    (h : r.selects w = true) (h' : q.selects w = true) : r = q :=
  List.inj_on_of_nodup_map opcodeMap_opc_nodup hr hq
    ((opc_of_selects hr h).symm.trans (opc_of_selects hq h'))

/-- The decoder's answer to a word that selects a row (R69). -/
theorem decode_of_selects {r : OpRow} (hr : r ∈ opcodeMap) {w : Cmd} (h : r.selects w = true) :
    decode w = .ok (r.build w) := by
  have hs : (opcodeMap.find? fun r => r.selects w).isSome = true := List.find?_isSome.2 ⟨r, hr, h⟩
  obtain ⟨q, hq⟩ := Option.isSome_iff_exists.1 hs
  have hqs : q.selects w = true := by simpa using List.find?_some hq
  rw [decode, hq, row_unique (List.mem_of_find?_eq_some hq) hr hqs h]

/-- The decoder answers a command exactly for the words that select a row (R69). -/
theorem decode_eq_ok_iff {w : Cmd} {i : Instr} :
    decode w = .ok i ↔ ∃ r ∈ opcodeMap, r.selects w = true ∧ r.build w = i := by
  constructor
  · intro h
    unfold decode at h
    split at h
    · rename_i r hr
      exact ⟨r, List.mem_of_find?_eq_some hr, by simpa using List.find?_some hr, Except.ok.inj h⟩
    · split at h <;> cases h
  · rintro ⟨r, hr, hs, rfl⟩
    exact decode_of_selects hr hs

end Sys2Proof
end

