-- ==== Sys2Proof/Laws/State.lean ====
section
/-! SUPPORT. One lemma per field per update of the state, each true by unfolding, so that no later proof unfolds a
record update; and what the shared checks answer. -/

namespace Sys2Proof.Machine

variable (s : State)

/-! ## raise -/

@[simp] theorem State.raise_cfg (e : Error) : (s.raise e).cfg = s.cfg := rfl
@[simp] theorem State.raise_r17 (e : Error) : (s.raise e).r17 = s.r17 := rfl
@[simp] theorem State.raise_r32 (e : Error) : (s.raise e).r32 = s.r32 := rfl
@[simp] theorem State.raise_tables (e : Error) : (s.raise e).tables = s.tables := rfl
@[simp] theorem State.raise_nonce (e : Error) : (s.raise e).nonce = s.nonce := rfl
@[simp] theorem State.raise_res (e : Error) : (s.raise e).res = s.res := rfl
@[simp] theorem State.raise_err (e : Error) : (s.raise e).err = some e := rfl
@[simp] theorem State.raise_sticky (e : Error) : (s.raise e).sticky = true := rfl
@[simp] theorem State.raise_port (e : Error) : (s.raise e).port = s.port := rfl
@[simp] theorem State.raise_v17 (e : Error) : (s.raise e).v17 = s.v17 := rfl
@[simp] theorem State.raise_v32 (e : Error) : (s.raise e).v32 = s.v32 := rfl
@[simp] theorem State.raise_active (e : Error) : (s.raise e).active = s.active := rfl
@[simp] theorem State.raise_getReg (e : Error) (q : Reg) : (s.raise e).getReg q = s.getReg q := by cases q <;> rfl
@[simp] theorem State.raise_memRead (e : Error) (sp : Space) (a : Byte) : (s.raise e).memRead sp a = s.memRead sp a := by cases sp <;> rfl

/-! ## complete -/

@[simp] theorem State.complete_cfg : (s.complete).cfg = s.cfg := rfl
@[simp] theorem State.complete_r17 : (s.complete).r17 = s.r17 := rfl
@[simp] theorem State.complete_r32 : (s.complete).r32 = s.r32 := rfl
@[simp] theorem State.complete_tables : (s.complete).tables = s.tables := rfl
@[simp] theorem State.complete_nonce : (s.complete).nonce = s.nonce := rfl
@[simp] theorem State.complete_res : (s.complete).res = s.res := rfl
@[simp] theorem State.complete_err : (s.complete).err = none := rfl
@[simp] theorem State.complete_sticky : (s.complete).sticky = s.sticky := rfl
@[simp] theorem State.complete_port : (s.complete).port = s.port := rfl
@[simp] theorem State.complete_v17 : (s.complete).v17 = s.v17 := rfl
@[simp] theorem State.complete_v32 : (s.complete).v32 = s.v32 := rfl
@[simp] theorem State.complete_active : (s.complete).active = s.active := rfl
@[simp] theorem State.complete_getReg (q : Reg) : (s.complete).getReg q = s.getReg q := by cases q <;> rfl
@[simp] theorem State.complete_memRead (sp : Space) (a : Byte) : (s.complete).memRead sp a = s.memRead sp a := by cases sp <;> rfl

/-! ## setRes -/

@[simp] theorem State.setRes_cfg {n : Nat} (v : BitVec n) : (s.setRes v).cfg = s.cfg := rfl
@[simp] theorem State.setRes_r17 {n : Nat} (v : BitVec n) : (s.setRes v).r17 = s.r17 := rfl
@[simp] theorem State.setRes_r32 {n : Nat} (v : BitVec n) : (s.setRes v).r32 = s.r32 := rfl
@[simp] theorem State.setRes_tables {n : Nat} (v : BitVec n) : (s.setRes v).tables = s.tables := rfl
@[simp] theorem State.setRes_nonce {n : Nat} (v : BitVec n) : (s.setRes v).nonce = s.nonce := rfl
@[simp] theorem State.setRes_res {n : Nat} (v : BitVec n) : (s.setRes v).res = v.setWidth 32 := rfl
@[simp] theorem State.setRes_err {n : Nat} (v : BitVec n) : (s.setRes v).err = s.err := rfl
@[simp] theorem State.setRes_sticky {n : Nat} (v : BitVec n) : (s.setRes v).sticky = s.sticky := rfl
@[simp] theorem State.setRes_port {n : Nat} (v : BitVec n) : (s.setRes v).port = s.port := rfl
@[simp] theorem State.setRes_v17 {n : Nat} (v : BitVec n) : (s.setRes v).v17 = s.v17 := rfl
@[simp] theorem State.setRes_v32 {n : Nat} (v : BitVec n) : (s.setRes v).v32 = s.v32 := rfl
@[simp] theorem State.setRes_active {n : Nat} (v : BitVec n) : (s.setRes v).active = s.active := rfl
@[simp] theorem State.setRes_getReg {n : Nat} (v : BitVec n) (q : Reg) : (s.setRes v).getReg q = s.getReg q := by cases q <;> rfl
@[simp] theorem State.setRes_memRead {n : Nat} (v : BitVec n) (sp : Space) (a : Byte) : (s.setRes v).memRead sp a = s.memRead sp a := by cases sp <;> rfl

/-! ## putSession -/

@[simp] theorem State.putSession_cfg (x : Session) : (s.putSession x).cfg = s.cfg := rfl
@[simp] theorem State.putSession_r17 (x : Session) : (s.putSession x).r17 = some x.regs.r17 := rfl
@[simp] theorem State.putSession_r32 (x : Session) : (s.putSession x).r32 = some x.regs.r32 := rfl
@[simp] theorem State.putSession_tables (x : Session) : (s.putSession x).tables = some x.tables := rfl
@[simp] theorem State.putSession_nonce (x : Session) : (s.putSession x).nonce = s.nonce := rfl
@[simp] theorem State.putSession_res (x : Session) : (s.putSession x).res = s.res := rfl
@[simp] theorem State.putSession_err (x : Session) : (s.putSession x).err = s.err := rfl
@[simp] theorem State.putSession_sticky (x : Session) : (s.putSession x).sticky = s.sticky := rfl
@[simp] theorem State.putSession_port (x : Session) : (s.putSession x).port = s.port := rfl
@[simp] theorem State.putSession_v17 (x : Session) : (s.putSession x).v17 = true := rfl
@[simp] theorem State.putSession_v32 (x : Session) : (s.putSession x).v32 = true := rfl
@[simp] theorem State.putSession_active (x : Session) : (s.putSession x).active = true := rfl

/-! ## issue -/

@[simp] theorem State.issue_cfg (i : HostInput) : (s.issue i).cfg = s.cfg := rfl
@[simp] theorem State.issue_r17 (i : HostInput) : (s.issue i).r17 = s.r17 := rfl
@[simp] theorem State.issue_r32 (i : HostInput) : (s.issue i).r32 = s.r32 := rfl
@[simp] theorem State.issue_tables (i : HostInput) : (s.issue i).tables = s.tables := rfl
@[simp] theorem State.issue_nonce (i : HostInput) : (s.issue i).nonce = s.nonce := rfl
@[simp] theorem State.issue_res (i : HostInput) : (s.issue i).res = s.res := rfl
@[simp] theorem State.issue_err (i : HostInput) : (s.issue i).err = s.err := rfl
@[simp] theorem State.issue_sticky (i : HostInput) : (s.issue i).sticky = s.sticky := rfl
@[simp] theorem State.issue_port (i : HostInput) : (s.issue i).port = i :: s.port := rfl
@[simp] theorem State.issue_v17 (i : HostInput) : (s.issue i).v17 = s.v17 := rfl
@[simp] theorem State.issue_v32 (i : HostInput) : (s.issue i).v32 = s.v32 := rfl
@[simp] theorem State.issue_active (i : HostInput) : (s.issue i).active = s.active := rfl
@[simp] theorem State.issue_getReg (i : HostInput) (q : Reg) : (s.issue i).getReg q = s.getReg q := by cases q <;> rfl
@[simp] theorem State.issue_memRead (i : HostInput) (sp : Space) (a : Byte) : (s.issue i).memRead sp a = s.memRead sp a := by cases sp <;> rfl

/-! ## hardReset -/

@[simp] theorem State.hardReset_cfg : (s.hardReset).cfg = s.cfg := rfl
@[simp] theorem State.hardReset_r17 : (s.hardReset).r17 = none := rfl
@[simp] theorem State.hardReset_r32 : (s.hardReset).r32 = none := rfl
@[simp] theorem State.hardReset_tables : (s.hardReset).tables = none := rfl
@[simp] theorem State.hardReset_nonce : (s.hardReset).nonce = [] := rfl
@[simp] theorem State.hardReset_res : (s.hardReset).res = 0 := rfl
@[simp] theorem State.hardReset_err : (s.hardReset).err = none := rfl
@[simp] theorem State.hardReset_sticky : (s.hardReset).sticky = false := rfl
@[simp] theorem State.hardReset_port : (s.hardReset).port = s.port := rfl
@[simp] theorem State.hardReset_v17 : (s.hardReset).v17 = false := rfl
@[simp] theorem State.hardReset_v32 : (s.hardReset).v32 = false := rfl
@[simp] theorem State.hardReset_active : (s.hardReset).active = false := rfl

/-! ## setReg -/

@[simp] theorem State.setReg_cfg (q : Reg) (v : BitVec q.width) : (s.setReg q v).cfg = s.cfg := by
  cases q <;> rfl
@[simp] theorem State.setReg_tables (q : Reg) (v : BitVec q.width) : (s.setReg q v).tables = s.tables := by
  cases q <;> rfl
@[simp] theorem State.setReg_nonce (q : Reg) (v : BitVec q.width) : (s.setReg q v).nonce = s.nonce := by
  cases q <;> rfl
@[simp] theorem State.setReg_res (q : Reg) (v : BitVec q.width) : (s.setReg q v).res = s.res := by
  cases q <;> rfl
@[simp] theorem State.setReg_err (q : Reg) (v : BitVec q.width) : (s.setReg q v).err = s.err := by
  cases q <;> rfl
@[simp] theorem State.setReg_sticky (q : Reg) (v : BitVec q.width) : (s.setReg q v).sticky = s.sticky := by
  cases q <;> rfl
@[simp] theorem State.setReg_port (q : Reg) (v : BitVec q.width) : (s.setReg q v).port = s.port := by
  cases q <;> rfl
@[simp] theorem State.setReg_active (q : Reg) (v : BitVec q.width) : (s.setReg q v).active = s.active := by
  cases q <;> rfl
@[simp] theorem State.setReg_memRead (q : Reg) (v : BitVec q.width) (sp : Space) (a : Byte) :
    (s.setReg q v).memRead sp a = s.memRead sp a := by cases q <;> cases sp <;> rfl
@[simp] theorem State.getReg_setReg_self (q : Reg) (v : BitVec q.width) : (s.setReg q v).getReg q = some v := by
  cases q <;> rfl
theorem State.getReg_setReg_of_ne {q p : Reg} (h : p ≠ q) (v : BitVec q.width) :
    (s.setReg q v).getReg p = s.getReg p := by
  cases q <;> cases p <;> first | rfl | exact absurd rfl h

/-! ## The state right after reset (R34) -/

@[simp] theorem State.reset_r17 : State.reset.r17 = none := rfl
@[simp] theorem State.reset_r32 : State.reset.r32 = none := rfl
@[simp] theorem State.reset_tables : State.reset.tables = none := rfl
@[simp] theorem State.reset_nonce : State.reset.nonce = [] := rfl
@[simp] theorem State.reset_res : State.reset.res = 0 := rfl
@[simp] theorem State.reset_err : State.reset.err = none := rfl
@[simp] theorem State.reset_sticky : State.reset.sticky = false := rfl
@[simp] theorem State.reset_port : State.reset.port = [] := rfl

/-! ## What the shared operations answer -/

@[simp] theorem State.finish_error (e : Error) : s.finish (.error e) = .next (s.raise e) := rfl

@[simp] theorem State.finish_ok (t : State) : s.finish (.ok t) = .next t.complete := rfl

/-- Everything the end of a command can do: it never stops the block; it raises an error in the state
before the command, or the command's writes stand and it completes (R13, R202). -/
theorem State.finish_cases (r : Except Error State) :
    (∃ e, r = .error e ∧ s.finish r = .next (s.raise e)) ∨
      ∃ t, r = .ok t ∧ s.finish r = .next t.complete := by
  cases r with
  | error e => exact .inl ⟨e, rfl, rfl⟩
  | ok t => exact .inr ⟨t, rfl, rfl⟩

variable {s}

theorem State.readReg_of_some {q : Reg} {x : BitVec q.width} (h : s.getReg q = some x) :
    s.readReg q = .ok x := by simp [State.readReg, h]

theorem State.readReg_of_none {q : Reg} (h : s.getReg q = none) : s.readReg q = .error .regNotInit := by
  simp [State.readReg, h]

theorem State.ownReg_of_active {q : Reg} (h : s.active = true) :
    s.ownReg q = .error .sessionAlreadyActive := by simp [State.ownReg, h]

theorem State.ownReg_of_idle {q : Reg} (h : s.active = false) : s.ownReg q = s.readReg q := by
  simp [State.ownReg, h]

theorem State.sessionTables_of_some {t : Tables} (h : s.tables = some t) : s.sessionTables = .ok t := by
  simp [State.sessionTables, h]

theorem State.sessionTables_of_none (h : s.tables = none) :
    s.sessionTables = .error .sessionNotActive := by simp [State.sessionTables, h]

theorem State.session_of_none (h : s.tables = none) : s.session = .error .sessionNotActive := by
  simp [State.session, h]

/-- The active session is what the state holds. -/
theorem State.session_eq_ok_iff {x : Session} :
    s.session = .ok x ↔
      s.tables = some x.tables ∧ s.r17 = some x.regs.r17 ∧ s.r32 = some x.regs.r32 := by
  obtain ⟨⟨a, b⟩, t⟩ := x
  unfold State.session
  cases s.tables <;> cases s.r17 <;> cases s.r32 <;> simp [and_comm]

theorem State.session_of_some {t : Tables} {a : BitVec 17} {b : BitVec 32} (ht : s.tables = some t)
    (ha : s.r17 = some a) (hb : s.r32 = some b) : s.session = .ok ⟨⟨a, b⟩, t⟩ :=
  State.session_eq_ok_iff.2 ⟨ht, ha, hb⟩

theorem State.active_eq_true : s.active = true ↔ ∃ t, s.tables = some t := by
  simp [State.active, Option.isSome_iff_exists]

theorem State.active_eq_false : s.active = false ↔ s.tables = none := by
  simp [State.active]

end Sys2Proof.Machine
end

