-- ==== Sys2Proof/Laws/Exec.lean ====
section
/-! SUPPORT. Everything the shared checks, a command, an input and a step can answer: the case lemmas that later proofs
cite, so that none of them unfolds the dispatch. -/

namespace Sys2Proof.Machine

/-! ## Results -/

@[simp] theorem except_map_ok {α β : Type} (f : α → β) (x : α) :
    (Except.ok x : Except Error α).map f = .ok (f x) := rfl

@[simp] theorem except_map_error {α β : Type} (f : α → β) (e : Error) :
    (Except.error e : Except Error α).map f = .error e := rfl

@[simp] theorem except_map_eq_error_iff {α β : Type} {r : Except Error α} {f : α → β} {e : Error} :
    r.map f = .error e ↔ r = .error e := by cases r <;> simp [Except.map]

@[simp] theorem except_map_eq_ok_iff {α β : Type} {r : Except Error α} {f : α → β} {u : β} :
    r.map f = .ok u ↔ ∃ x, r = .ok x ∧ f x = u := by cases r <;> simp [Except.map]

variable {s t : State}

/-- An error is reported exactly when the result was that error (R13). -/
theorem State.finish_err {r : Except Error State} {e : Error} (h : s.finish r = .next t)
    (he : t.err = some e) : r = .error e := by
  cases r with
  | error x => cases h; exact congrArg Except.error (Option.some.inj he)
  | ok v => cases h; cases he

/-! ## The shared checks -/

theorem State.readReg_cases (s : State) (q : Reg) :
    (s.getReg q = none ∧ s.readReg q = .error .regNotInit) ∨
      ∃ x, s.getReg q = some x ∧ s.readReg q = .ok x := by
  cases h : s.getReg q with
  | none => exact .inl ⟨rfl, s.readReg_of_none h⟩
  | some x => exact .inr ⟨x, rfl, s.readReg_of_some h⟩

/-- R203's order: the session before the valid flag. -/
theorem State.ownReg_cases (s : State) (q : Reg) :
    (s.active = true ∧ s.ownReg q = .error .sessionAlreadyActive) ∨
      (s.active = false ∧ s.getReg q = none ∧ s.ownReg q = .error .regNotInit) ∨
      ∃ x, s.active = false ∧ s.getReg q = some x ∧ s.ownReg q = .ok x := by
  cases ha : s.active with
  | true => exact .inl ⟨rfl, s.ownReg_of_active ha⟩
  | false =>
    rw [s.ownReg_of_idle ha]
    rcases s.readReg_cases q with ⟨h, hr⟩ | ⟨x, h, hr⟩
    · exact .inr (.inl ⟨rfl, h, hr⟩)
    · exact .inr (.inr ⟨x, rfl, h, hr⟩)

theorem State.sessionTables_cases (s : State) :
    (s.active = false ∧ s.sessionTables = .error .sessionNotActive) ∨
      ∃ t, s.tables = some t ∧ s.sessionTables = .ok t := by
  cases h : s.tables with
  | none => exact .inl ⟨State.active_eq_false.2 h, s.sessionTables_of_none h⟩
  | some t => exact .inr ⟨t, rfl, s.sessionTables_of_some h⟩

/-- The third case is one no run reaches (R160; log entry 5). -/
theorem State.session_cases (s : State) :
    (s.active = false ∧ s.session = .error .sessionNotActive) ∨
      (∃ x : Session, s.tables = some x.tables ∧ s.r17 = some x.regs.r17 ∧ s.r32 = some x.regs.r32 ∧
        s.session = .ok x) ∨
      (s.active = true ∧ (s.v17 = false ∨ s.v32 = false) ∧ s.session = .error .regNotInit) := by
  cases ht : s.tables with
  | none => exact .inl ⟨State.active_eq_false.2 ht, s.session_of_none ht⟩
  | some t =>
    cases ha : s.r17 with
    | none => exact .inr (.inr ⟨by simp [State.active, ht], by simp [State.v17, ha],
        by simp [State.session, ht, ha]⟩)
    | some a =>
      cases hb : s.r32 with
      | none => exact .inr (.inr ⟨by simp [State.active, ht], by simp [State.v32, hb],
          by simp [State.session, ht, hb]⟩)
      | some b => exact .inr (.inl ⟨⟨⟨a, b⟩, t⟩, rfl, rfl, rfl, s.session_of_some ht ha hb⟩)

/-! ## A command -/

/-- What a command's checks and writes come to, before its end writes ERR and STICKY. -/
theorem exec_eq_finish (i : Instr) (s : State) : ∃ r, exec i s = s.finish r := by
  cases i
  case nonceWr idx val => exact ⟨.ok { s with nonce := Memory.write s.nonce idx val }, rfl⟩
  all_goals exact ⟨_, rfl⟩

/-- Everything a command can do: raise an error in the state before it, or complete its writes. -/
theorem exec_cases {i : Instr} (h : exec i s = .next t) :
    (∃ e, t = s.raise e) ∨ ∃ u, t = u.complete ∧ exec i s = s.finish (.ok u) := by
  obtain ⟨r, hr⟩ := exec_eq_finish i s
  rcases s.finish_cases r with ⟨e, rfl, h1⟩ | ⟨u, rfl, h1⟩ <;> rw [hr, h1] at h <;> cases h
  · exact .inl ⟨e, rfl⟩
  · exact .inr ⟨u, rfl, hr⟩

/-! ## An input and a step -/

/-- Everything a command word can do. -/
theorem accept_command_cases {w : Cmd} (h : accept (.command w) s = .next t) :
    (∃ e, t = s.raise e) ∨
      ∃ i u, decode w = .ok i ∧ t = u.complete ∧ exec i s = s.finish (.ok u) := by
  simp only [accept] at h
  split at h
  · rename_i c hc
    rcases exec_cases h with h | ⟨u, h1, h2⟩
    · exact .inl h
    · exact .inr ⟨c, u, hc, h1, h2⟩
  · cases h; exact .inl ⟨_, rfl⟩

/-- Everything a step can do: wait, or accept the first input of the port. -/
theorem step_cases (h : step s = .next t) :
    (s.port = [] ∧ t = s) ∨
      ∃ i rest, s.port = i :: rest ∧ accept i { s with port := rest } = .next t := by
  cases hp : s.port with
  | nil => simp [step, State.takeInput, hp] at h; exact .inl ⟨rfl, h.symm⟩
  | cons i rest => simp [step, State.takeInput, hp] at h; exact .inr ⟨i, rest, rfl, h⟩

end Sys2Proof.Machine
end

