-- ==== Sys2Proof/Laws/Lfsr.lean ====
section
/-! SUPPORT. The step functions bit by bit, and the XOR over the taps. -/

namespace Sys2Proof.Machine

variable {w : Nat}

@[simp] theorem xorBelow_zero_left (n : Nat) : xorBelow (0#w) n = false := by
  induction n with
  | zero => rfl
  | succ n ih => simp [xorBelow, ih]

/-- The XOR below `n` sees only the bits below `n`. -/
theorem xorBelow_congr {v : Nat} {x : BitVec w} {y : BitVec v} {n : Nat}
    (h : ∀ k < n, x.getLsbD k = y.getLsbD k) : xorBelow x n = xorBelow y n := by
  induction n with
  | zero => rfl
  | succ n ih => simp [xorBelow, h n (by omega), ih fun k hk => h k (by omega)]

theorem xorBelow_xor (x y : BitVec w) (n : Nat) :
    xorBelow (x ^^^ y) n = (xorBelow x n ^^ xorBelow y n) := by
  induction n with
  | zero => rfl
  | succ n ih =>
    simp only [xorBelow, BitVec.getLsbD_xor, ih]
    cases x.getLsbD n <;> cases y.getLsbD n <;> cases xorBelow x n <;> cases xorBelow y n <;> rfl

/-- A forward step: the feedback enters at bit 0, and every other bit is the one below it (R103). -/
theorem getLsbD_fwdStep (taps s : BitVec w) (k : Nat) :
    (fwdStep taps s).getLsbD k =
      (decide (k < w) && if k = 0 then feedback taps s else s.getLsbD (k - 1)) := by
  cases k with
  | zero => simp [fwdStep, BitVec.getLsbD_setWidth]
  | succ k => simp [fwdStep, BitVec.getLsbD_setWidth, BitVec.getLsbD_shiftLeft]

/-- A backward step: the recovered bit is the top one, and every other bit is the one above it (R104). -/
theorem getLsbD_bwdStep (taps s : BitVec w) (k : Nat) :
    (bwdStep taps s).getLsbD k =
      (decide (k < w) && if k = w - 1
        then s.getLsbD 0 ^^ xorBelow (taps &&& s >>> 1) (w - 1)
        else s.getLsbD (k + 1)) := by
  by_cases hk : k < w
  · by_cases h : k = w - 1
    · have : s.getLsbD (1 + k) = false := BitVec.getLsbD_of_ge s (1 + k) (by omega)
      simp [bwdStep, h, show w - 1 < w by omega, show 1 + (w - 1) = w by omega]
    · have h1 : k < w - 1 := by omega
      simp [bwdStep, hk, h, h1, Nat.add_comm]
  · simp [hk, BitVec.getLsbD_of_ge _ k (Nat.not_lt.1 hk)]

theorem getElem_fwdStep (taps s : BitVec w) (k : Nat) (hk : k < w) :
    (fwdStep taps s)[k] = if k = 0 then feedback taps s else s.getLsbD (k - 1) := by
  rw [← BitVec.getLsbD_eq_getElem, getLsbD_fwdStep]
  simp only [hk, decide_true, Bool.true_and]

theorem getElem_bwdStep (taps s : BitVec w) (k : Nat) (hk : k < w) :
    (bwdStep taps s)[k] = if k = w - 1 then s.getLsbD 0 ^^ xorBelow (taps &&& s >>> 1) (w - 1)
      else s.getLsbD (k + 1) := by
  rw [← BitVec.getLsbD_eq_getElem, getLsbD_bwdStep]
  simp only [hk, decide_true, Bool.true_and]

theorem fwdSteps_zero (taps s : BitVec w) : fwdSteps taps 0 s = s := rfl

theorem fwdSteps_succ (taps s : BitVec w) (k : Nat) :
    fwdSteps taps (k + 1) s = fwdSteps taps k (fwdStep taps s) := rfl

theorem fwdSteps_succ' (taps s : BitVec w) (k : Nat) :
    fwdSteps taps (k + 1) s = fwdStep taps (fwdSteps taps k s) :=
  Function.iterate_succ_apply' _ _ _

theorem fwdSteps_add (taps s : BitVec w) (j k : Nat) :
    fwdSteps taps (j + k) s = fwdSteps taps j (fwdSteps taps k s) :=
  Function.iterate_add_apply _ _ _ _

theorem bwdSteps_zero (taps s : BitVec w) : bwdSteps taps 0 s = s := rfl

theorem bwdSteps_succ (taps s : BitVec w) (k : Nat) :
    bwdSteps taps (k + 1) s = bwdSteps taps k (bwdStep taps s) := rfl

theorem bwdSteps_succ' (taps s : BitVec w) (k : Nat) :
    bwdSteps taps (k + 1) s = bwdStep taps (bwdSteps taps k s) :=
  Function.iterate_succ_apply' _ _ _

theorem bwdSteps_add (taps s : BitVec w) (j k : Nat) :
    bwdSteps taps (j + k) s = bwdSteps taps j (bwdSteps taps k s) :=
  Function.iterate_add_apply _ _ _ _

@[simp] theorem length_drawnBytes (taps : BitVec w) (n : Nat) (s : BitVec w) :
    (drawnBytes taps n s).length = n := by
  induction n generalizing s with
  | zero => rfl
  | succ n ih => simp [drawnBytes, ih]

theorem tapsWellFormed_iff {taps : BitVec w} :
    tapsWellFormed taps = true ↔ taps.getLsbD (w - 1) = true := by
  refine ⟨fun h => (Bool.and_eq_true_iff.1 h).2, fun h => ?_⟩
  have : taps ≠ 0#w := fun h0 => by simp [h0] at h
  simp [tapsWellFormed, h, this]

theorem seedInvalid_eq_false_iff {seed : Imm} :
    seedInvalid w seed = false ↔ seed ≠ 0#40 ∧ seed.toNat ≤ 2 ^ w - 1 := by
  simp [seedInvalid]

end Sys2Proof.Machine
end

