-- ==== Sys2Proof/Laws/Memory.lean ====
section
/-! SUPPORT. The laws of one address space: a read after a write, and the canonical form is kept. The read laws hold
of every list of cells, canonical or not. -/

namespace Sys2Proof.Machine

theorem Memory.read_nil (a : Byte) : Memory.read [] a = 0#8 := rfl

theorem Memory.read_cons (c : Host.Cell) (m : Memory) (a : Byte) :
    Memory.read (c :: m) a = if c.1 = a.toNat then c.2 else Memory.read m a := rfl

theorem Memory.read_erase (m : Memory) (a b : Byte) :
    Memory.read (Memory.erase m a) b = if b = a then 0#8 else Memory.read m b := by
  induction m with
  | nil => simp [Memory.erase, Memory.read_nil]
  | cons c m ih =>
    by_cases hc : c.1 = a.toNat
    · have he : Memory.erase (c :: m) a = Memory.erase m a := by simp [Memory.erase, hc]
      rw [he, ih, Memory.read_cons]
      by_cases hb : b = a
      · simp [hb]
      · have : c.1 ≠ b.toNat := fun h => hb (BitVec.eq_of_toNat_eq (by omega))
        simp [hb, this]
    · have he : Memory.erase (c :: m) a = c :: Memory.erase m a := by simp [Memory.erase, hc]
      rw [he, Memory.read_cons, Memory.read_cons, ih]
      by_cases hb : b = a
      · subst hb; simp [hc]
      · simp [hb]

/-- A read after a write gives the byte written, and every other address reads as before. -/
@[simp] theorem Memory.read_write (m : Memory) (a b v : Byte) :
    Memory.read (Memory.write m a v) b = if b = a then v else Memory.read m b := by
  induction m with
  | nil =>
    by_cases hv : v = 0#8
    · simp [Memory.write, hv, Memory.read_nil]
    · by_cases hb : b = a
      · simp [Memory.write, hv, Memory.read_cons, hb]
      · have : a.toNat ≠ b.toNat := fun h => hb (BitVec.eq_of_toNat_eq h.symm)
        simp [Memory.write, hv, Memory.read_cons, hb, this]
  | cons c m ih =>
    obtain ⟨k, u⟩ := c
    rw [Memory.write]
    split
    · rename_i hlt
      rw [Memory.read_cons, ih, Memory.read_cons]
      by_cases hb : b = a
      · have : k ≠ a.toNat := by omega
        simp [hb, this]
      · simp [hb]
    · split
      · rename_i hv
        rw [Memory.read_erase, hv]
      · have hne : ∀ {x : Byte}, x ≠ a → a.toNat ≠ x.toNat :=
          fun hx h => hx (BitVec.eq_of_toNat_eq h.symm)
        split
        · rename_i hk
          rw [Memory.read_cons, Memory.read_cons]
          by_cases hb : b = a
          · simp [hb]
          · simp [hb, hk, hne hb]
        · rw [Memory.read_cons]
          by_cases hb : b = a
          · simp [hb]
          · simp [hb, hne hb]

theorem Memory.mem_erase {m : Memory} {a : Byte} {c : Host.Cell} :
    c ∈ Memory.erase m a → c ∈ m := fun h => List.mem_of_mem_filter h

theorem Memory.mem_write {m : Memory} {a v : Byte} {c : Host.Cell} (h : c ∈ Memory.write m a v) :
    c ∈ m ∨ (c = (a.toNat, v) ∧ v ≠ 0#8) := by
  induction m with
  | nil =>
    by_cases hv : v = 0#8
    · simp [Memory.write, hv] at h
    · simp [Memory.write, hv] at h; exact .inr ⟨h, hv⟩
  | cons d m ih =>
    obtain ⟨k, u⟩ := d
    rw [Memory.write] at h
    split at h
    · rcases List.mem_cons.1 h with rfl | h
      · exact .inl List.mem_cons_self
      · exact (ih h).imp_left (List.mem_cons_of_mem _)
    · split at h
      · exact .inl (Memory.mem_erase h)
      · rename_i hv
        split at h
        · rcases List.mem_cons.1 h with rfl | h
          · exact .inr ⟨rfl, hv⟩
          · exact .inl (List.mem_cons_of_mem _ h)
        · rcases List.mem_cons.1 h with rfl | h
          · exact .inr ⟨rfl, hv⟩
          · exact .inl h

theorem Memory.wf_nil : Memory.wf [] := ⟨List.Pairwise.nil, by simp⟩

theorem Memory.wf_erase {m : Memory} (h : Memory.wf m) (a : Byte) : Memory.wf (Memory.erase m a) :=
  ⟨h.1.filter _, fun c hc => h.2 c (Memory.mem_erase hc)⟩

/-- A write keeps the canonical form. -/
theorem Memory.wf_write {m : Memory} (h : Memory.wf m) (a v : Byte) :
    Memory.wf (Memory.write m a v) := by
  refine ⟨?_, fun c hc => ?_⟩
  · obtain ⟨hs, -⟩ := h
    induction m with
    | nil => by_cases hv : v = 0#8 <;> simp [Memory.write, hv]
    | cons d m ih =>
      obtain ⟨k, u⟩ := d
      obtain ⟨hd, hm⟩ := List.pairwise_cons.1 hs
      rw [Memory.write]
      split
      · rename_i hlt
        refine List.pairwise_cons.2 ⟨fun c hc => ?_, ih hm⟩
        rcases Memory.mem_write hc with hc | ⟨rfl, -⟩
        · exact hd c hc
        · exact hlt
      · split
        · exact hs.filter _
        · split
          · rename_i hk
            exact List.pairwise_cons.2 ⟨fun c hc => hk ▸ hd c hc, hm⟩
          · refine List.pairwise_cons.2 ⟨fun c hc => ?_, hs⟩
            rcases List.mem_cons.1 hc with rfl | hc
            · change a.toNat < k; omega
            · have := hd c hc
              change a.toNat < c.1; change k < c.1 at this; omega
  · rcases Memory.mem_write hc with hc | ⟨rfl, hv⟩
    · exact h.2 c hc
    · exact ⟨a.isLt, hv⟩

/-- A swap exchanges two entries and leaves the others. -/
@[simp] theorem Memory.read_swap (m : Memory) (i j b : Byte) :
    Memory.read (Memory.swap m i j) b =
      if b = j then Memory.read m i else if b = i then Memory.read m j else Memory.read m b := by
  simp [Memory.swap]

/-- A swap keeps the canonical form. -/
theorem Memory.wf_swap {m : Memory} (h : Memory.wf m) (i j : Byte) : Memory.wf (Memory.swap m i j) :=
  Memory.wf_write (Memory.wf_write h _ _) _ _

@[simp] theorem mem_addresses (a : Byte) : a ∈ addresses := by
  refine List.mem_map.2 ⟨a.toNat, List.mem_range.2 a.isLt, ?_⟩
  simp

theorem addresses_nodup : addresses.Nodup :=
  (List.nodup_map_iff_inj_on List.nodup_range).2 fun x hx y hy h => by
    have hx := List.mem_range.1 hx
    have hy := List.mem_range.1 hy
    have := congrArg BitVec.toNat h
    simp only [BitVec.toNat_ofNat] at this
    omega

/-- Writes one after another, at addresses that an injective function gives: each of them reads the byte
written there, and every other address of the function reads as before. -/
theorem Memory.read_foldl_write {f : Byte → Byte} (hf : Function.Injective f) (g : Byte → Byte)
    (l : List Byte) (m : Memory) (x : Byte) :
    Memory.read (l.foldl (fun m x => Memory.write m (f x) (g x)) m) (f x) =
      if x ∈ l then g x else Memory.read m (f x) := by
  induction l generalizing m with
  | nil => simp
  | cons y l ih =>
    rw [List.foldl_cons, ih, Memory.read_write]
    by_cases h : x ∈ l
    · simp [h]
    · by_cases hx : x = y
      · simp [hx]
      · simp [h, hx, hf.ne hx]

/-- The same writes at every address. -/
theorem Memory.read_foldl_write_addresses {f : Byte → Byte} (hf : Function.Injective f)
    (g : Byte → Byte) (m : Memory) (x : Byte) :
    Memory.read (addresses.foldl (fun m x => Memory.write m (f x) (g x)) m) (f x) = g x := by
  have h := Memory.read_foldl_write hf g addresses m x
  rwa [if_pos (mem_addresses x)] at h

@[simp] theorem Memory.read_identity (b : Byte) : Memory.read Memory.identity b = b :=
  Memory.read_foldl_write_addresses (f := fun x => x) Function.injective_id (fun x => x) [] b

theorem Memory.wf_foldl_write (f g : Byte → Byte) (l : List Byte) {m : Memory} (h : Memory.wf m) :
    Memory.wf (l.foldl (fun m x => Memory.write m (f x) (g x)) m) := by
  induction l generalizing m with
  | nil => exact h
  | cons x l ih => exact ih (Memory.wf_write h _ _)

theorem Memory.wf_identity : Memory.wf Memory.identity :=
  Memory.wf_foldl_write id id addresses Memory.wf_nil

/-- Two spaces in canonical form that read alike are equal. -/
theorem Memory.ext_of_wf {m n : Memory} (hm : Memory.wf m) (hn : Memory.wf n)
    (h : ∀ a, Memory.read m a = Memory.read n a) : m = n := by
  have key : ∀ {m : Memory}, Memory.wf m → ∀ a : Byte, ∀ v : Byte, v ≠ 0#8 →
      (Memory.read m a = v ↔ (a.toNat, v) ∈ m) := by
    intro m hm a v hv
    induction m with
    | nil => simp [Memory.read_nil, Ne.symm hv]
    | cons c m ih =>
      obtain ⟨hc, hs⟩ := List.pairwise_cons.1 hm.1
      have ih := ih ⟨hs, fun d hd => hm.2 d (List.mem_cons_of_mem _ hd)⟩
      rw [Memory.read_cons]
      by_cases hca : c.1 = a.toNat
      · simp only [hca, if_true, List.mem_cons]
        constructor
        · rintro rfl; exact .inl (Prod.ext hca.symm rfl)
        · rintro (h | h)
          · rw [← h]
          · have := hc _ h; simp [hca] at this
      · simp only [hca, if_false, List.mem_cons, ih]
        constructor
        · exact .inr
        · rintro (h | h)
          · rw [← h] at hca; simp at hca
          · exact h
  have hmem : ∀ c : Host.Cell, c ∈ m ↔ c ∈ n := by
    rintro ⟨k, v⟩
    have go : ∀ {m n : Memory}, Memory.wf m → Memory.wf n →
        (∀ a, Memory.read m a = Memory.read n a) → (k, v) ∈ m → (k, v) ∈ n := by
      intro m n hm hn h hc
      obtain ⟨hk, hv⟩ := hm.2 _ hc
      have hkn : (BitVec.ofNat 8 k).toNat = k := by simp; simpa using hk
      have := (key hm (BitVec.ofNat 8 k) v hv).2 (by rw [hkn]; exact hc)
      rw [h] at this
      have := (key hn (BitVec.ofNat 8 k) v hv).1 this
      rwa [hkn] at this
    exact ⟨go hm hn h, go hn hm fun a => (h a).symm⟩
  have nd : ∀ {m : Memory}, Memory.wf m → m.Nodup := fun hm =>
    hm.1.imp fun {a b} hab (e : a = b) => by simp [e] at hab
  exact ((List.perm_ext_iff_of_nodup (nd hm) (nd hn)).2 hmem).eq_of_pairwise
    (fun a b _ _ hab hba => absurd hab (by omega)) hm.1 hn.1

end Sys2Proof.Machine
end

