-- ==== Sys2Proof/Laws/PerInstr.lean ====
section
/-! SUPPORT. The family OpcodeRow: a command's word selects the row of the opcode map that has its name, so its
reserved bits are 0 (R66, R67, R72). -/

namespace Sys2Proof.Laws.OpcodeRow

/-- The `match` and `mask` columns of a command's row in R66. -/
def columns : Instr → Cmd × Cmd
  | .lfsrInit _ _ => (0x1000000000000000, 0xFFFEFF0000000000)
  | .lfsrStepFwd _ => (0x1100000000000000, 0xFFFEFFFFFFFFFFFF)
  | .lfsrStepBwd _ => (0x1200000000000000, 0xFFFEFFFFFFFFFFFF)
  | .lfsrNextByte _ => (0x1300000000000000, 0xFFFEFFFFFFFFFFFF)
  | .lfsrPrevByte _ => (0x1400000000000000, 0xFFFEFFFFFFFFFFFF)
  | .lfsrRead _ => (0x1500000000000000, 0xFFFEFFFFFFFFFFFF)
  | .nonceWr _ _ => (0x2000000000000000, 0xFF0000FFFFFFFFFF)
  | .beginSession _ => (0x2100000000000000, 0xFFFFFF0000000000)
  | .endSession => (0x2200000000000000, 0xFFFFFFFFFFFFFFFF)
  | .encryptSym _ => (0x2300000000000000, 0xFF00FFFFFFFFFFFF)
  | .decryptSym _ => (0x2400000000000000, 0xFF00FFFFFFFFFFFF)
  | .update _ => (0x2500000000000000, 0xFF00FFFFFFFFFFFF)
  | .tblRdFwd _ => (0x2600000000000000, 0xFF00FFFFFFFFFFFF)
  | .tblRdInv _ => (0x2700000000000000, 0xFF00FFFFFFFFFFFF)

/-- The command's word, under its row's mask, is its row's match. -/
def Statement (i : Instr) : Prop := encode i &&& (columns i).2 = (columns i).1

/-- The four fields of a masked word, checked one by one. -/
theorem of_fields {o a b : Byte} {i : Imm} (m v : Cmd) (ho : o &&& m.opc = v.opc)
    (ha : a &&& m.a = v.a) (hb : b &&& m.b = v.b) (hi : i &&& m.imm = v.imm) :
    Cmd.pack o a b i &&& m = v := by
  rw [← Cmd.pack_fields m, Cmd.pack_and, ho, ha, hb, hi, Cmd.pack_fields]

/-- A field the mask leaves out is an operand, whatever it holds. -/
theorem and_clear {n : Nat} (x : BitVec n) {m v : BitVec n} (hm : m = 0#n) (hv : v = 0#n) :
    x &&& m = v := by rw [hm, hv, BitVec.and_zero]

theorem lfsrInit (sel : Reg) (seed : Imm) : Statement (.lfsrInit sel seed) :=
  of_fields 0xFFFEFF0000000000 0x1000000000000000 (by decide) (by cases sel <;> decide) (by decide)
    (and_clear seed (by decide) (by decide))

theorem lfsrStepFwd (sel : Reg) : Statement (.lfsrStepFwd sel) :=
  of_fields 0xFFFEFFFFFFFFFFFF 0x1100000000000000 (by decide) (by cases sel <;> decide) (by decide)
    (by decide)

theorem lfsrStepBwd (sel : Reg) : Statement (.lfsrStepBwd sel) :=
  of_fields 0xFFFEFFFFFFFFFFFF 0x1200000000000000 (by decide) (by cases sel <;> decide) (by decide)
    (by decide)

theorem lfsrNextByte (sel : Reg) : Statement (.lfsrNextByte sel) :=
  of_fields 0xFFFEFFFFFFFFFFFF 0x1300000000000000 (by decide) (by cases sel <;> decide) (by decide)
    (by decide)

theorem lfsrPrevByte (sel : Reg) : Statement (.lfsrPrevByte sel) :=
  of_fields 0xFFFEFFFFFFFFFFFF 0x1400000000000000 (by decide) (by cases sel <;> decide) (by decide)
    (by decide)

theorem lfsrRead (sel : Reg) : Statement (.lfsrRead sel) :=
  of_fields 0xFFFEFFFFFFFFFFFF 0x1500000000000000 (by decide) (by cases sel <;> decide) (by decide)
    (by decide)

theorem nonceWr (idx val : Byte) : Statement (.nonceWr idx val) :=
  of_fields 0xFF0000FFFFFFFFFF 0x2000000000000000 (by decide) (and_clear idx (by decide) (by decide)) (and_clear val (by decide) (by decide))
    (by decide)

theorem beginSession (key : Imm) : Statement (.beginSession key) :=
  of_fields 0xFFFFFF0000000000 0x2100000000000000 (by decide) (by decide) (by decide)
    (and_clear key (by decide) (by decide))

theorem endSession : Statement .endSession :=
  of_fields 0xFFFFFFFFFFFFFFFF 0x2200000000000000 (by decide) (by decide) (by decide)
    (by decide)

theorem encryptSym (v : Byte) : Statement (.encryptSym v) :=
  of_fields 0xFF00FFFFFFFFFFFF 0x2300000000000000 (by decide) (and_clear v (by decide) (by decide)) (by decide)
    (by decide)

theorem decryptSym (c : Byte) : Statement (.decryptSym c) :=
  of_fields 0xFF00FFFFFFFFFFFF 0x2400000000000000 (by decide) (and_clear c (by decide) (by decide)) (by decide)
    (by decide)

theorem update (v : Byte) : Statement (.update v) :=
  of_fields 0xFF00FFFFFFFFFFFF 0x2500000000000000 (by decide) (and_clear v (by decide) (by decide)) (by decide)
    (by decide)

theorem tblRdFwd (idx : Byte) : Statement (.tblRdFwd idx) :=
  of_fields 0xFF00FFFFFFFFFFFF 0x2600000000000000 (by decide) (and_clear idx (by decide) (by decide)) (by decide)
    (by decide)

theorem tblRdInv (idx : Byte) : Statement (.tblRdInv idx) :=
  of_fields 0xFF00FFFFFFFFFFFF 0x2700000000000000 (by decide) (and_clear idx (by decide) (by decide)) (by decide)
    (by decide)

end Sys2Proof.Laws.OpcodeRow
end

