-- ==== Sys2Proof/Laws/Session.lean ====
section
/-! SUPPORT. What one step of table generation and of the update does: to the registers, and to the table by its
reads. -/

namespace Sys2Proof.Machine

@[simp] theorem Regs.afterDraw_r17 (c : Config) (r : Regs) :
    (r.afterDraw c).r17 = fwdSteps c.taps17 8 r.r17 := rfl

@[simp] theorem Regs.afterDraw_r32 (c : Config) (r : Regs) :
    (r.afterDraw c).r32 = fwdSteps c.taps32 8 r.r32 := rfl

theorem Regs.advance_zero (c : Config) (r : Regs) : r.advance c 0 = r := rfl

/-- Draws add up (R119). -/
theorem Regs.advance_add (c : Config) (j k : Nat) (r : Regs) :
    (r.advance c j).advance c k = r.advance c (j + k) := by
  simp only [Regs.advance, ← fwdSteps_add, ← Nat.mul_add, Nat.add_comm k j]

theorem Regs.afterDraw_eq_advance (c : Config) (r : Regs) : r.afterDraw c = r.advance c 1 := rfl

@[simp] theorem shuffleStep_regs (c : Config) (i : Nat) (b : Build) :
    (shuffleStep c i b).regs = b.regs.afterDraw c := rfl

@[simp] theorem shuffleStep_fwd (c : Config) (i : Nat) (b : Build) :
    (shuffleStep c i b).fwd =
      Memory.swap b.fwd (BitVec.ofNat 8 i) (shuffleIndex b.regs.drawByte i) := rfl

/-- The drawn index lies in `[0, i]` (R137). -/
theorem shuffleIndex_le (d : Byte) (i : Nat) : (shuffleIndex d i).toNat ≤ i := by
  have h1 := Nat.mod_lt d.toNat (show 0 < i + 1 by omega)
  have h2 := Nat.mod_le (d.toNat % (i + 1)) (2 ^ 8)
  simp only [shuffleIndex, BitVec.toNat_ofNat]
  omega

@[simp] theorem defaultMixStep_regs (c : Config) (nonce : Memory) (jb : Byte × Build) (i : Byte) :
    (defaultMixStep c nonce jb i).2.regs = jb.2.regs.afterDraw c := rfl

@[simp] theorem defaultMixStep_fwd (c : Config) (nonce : Memory) (jb : Byte × Build) (i : Byte) :
    (defaultMixStep c nonce jb i).2.fwd =
      Memory.swap jb.2.fwd i (defaultMixStep c nonce jb i).1 := rfl

@[simp] theorem platformMix_regs (c : Config) (nonce : Memory) (b : Build) :
    (platformMix c nonce b).regs = b.regs.advance c Config.platformDraws := rfl

theorem platformMixStep_table (o17 o32 : List Byte) (nonce : Memory) (jf : Byte × Memory) (i : Byte) :
    ∃ swaps, (platformMixStep o17 o32 nonce jf i).2 = applySwaps jf.2 swaps := ⟨_, rfl⟩

@[simp] theorem Session.update_regs (c : Config) (x : Session) (v : Byte) :
    (x.update c v).regs = x.regs.afterDraw c := rfl

@[simp] theorem Session.update_tables (c : Config) (x : Session) (v : Byte) :
    (x.update c v).tables = x.tables.update v x.regs.drawByte := rfl

/-- F after an update: entries `v` and `i` are exchanged (R161). -/
@[simp] theorem Tables.read_update_fwd (t : Tables) (v i b : Byte) :
    Memory.read (t.update v i).fwd b =
      if b = i then Memory.read t.fwd v else if b = v then Memory.read t.fwd i
      else Memory.read t.fwd b := by
  simp [Tables.update]

/-- INV after an update: the two values that moved have their new places (R161). -/
@[simp] theorem Tables.read_update_inv (t : Tables) (v i b : Byte) :
    Memory.read (t.update v i).inv b =
      if b = Memory.read t.fwd v then i else if b = Memory.read t.fwd i then v
      else Memory.read t.inv b := by
  simp [Tables.update]

theorem Tables.wf_update {t : Tables} (hf : Memory.wf t.fwd) (hi : Memory.wf t.inv) (v i : Byte) :
    Memory.wf (t.update v i).fwd ∧ Memory.wf (t.update v i).inv :=
  ⟨Memory.wf_write (Memory.wf_write hf _ _) _ _, Memory.wf_write (Memory.wf_write hi _ _) _ _⟩

theorem wf_rebuildInv (fwd : Memory) : Memory.wf (rebuildInv fwd) :=
  Memory.wf_foldl_write (Memory.read fwd) id addresses Memory.wf_nil

theorem wf_applySwaps {m : Memory} (h : Memory.wf m) (swaps : List (Byte × Byte)) :
    Memory.wf (applySwaps m swaps) := by
  induction swaps generalizing m with
  | nil => exact h
  | cons p swaps ih => exact ih (Memory.wf_swap h _ _)

theorem wf_shuffleFrom (c : Config) (n : Nat) {b : Build} (h : Memory.wf b.fwd) :
    Memory.wf (shuffleFrom c n b).fwd := by
  induction n generalizing b with
  | zero => exact h
  | succ n ih => exact ih (Memory.wf_swap h _ _)

theorem wf_foldl_defaultMixStep (c : Config) (nonce : Memory) (l : List Byte) {jb : Byte × Build}
    (h : Memory.wf jb.2.fwd) : Memory.wf (l.foldl (defaultMixStep c nonce) jb).2.fwd := by
  induction l generalizing jb with
  | nil => exact h
  | cons i l ih => exact ih (Memory.wf_swap h _ _)

theorem wf_foldl_platformMixStep (o17 o32 : List Byte) (nonce : Memory) (l : List Byte)
    {jf : Byte × Memory} (h : Memory.wf jf.2) :
    Memory.wf (l.foldl (platformMixStep o17 o32 nonce) jf).2 := by
  induction l generalizing jf with
  | nil => exact h
  | cons i l ih => exact ih (wf_applySwaps h _)

/-- Whichever pass is configured, it keeps the canonical form. -/
theorem wf_nonceMix (c : Config) (nonce : Memory) {b : Build} (h : Memory.wf b.fwd) :
    Memory.wf (nonceMix c nonce b).fwd := by
  unfold nonceMix
  split
  · exact wf_foldl_defaultMixStep c nonce addresses h
  · exact wf_foldl_platformMixStep _ _ nonce platformPositions h

theorem wf_buildSession (c : Config) (nonce : Memory) (key : Imm) :
    Memory.wf (buildSession c nonce key).tables.fwd ∧ Memory.wf (buildSession c nonce key).tables.inv := by
  have h := Memory.wf_identity
  simp only [buildSession]
  generalize Memory.identity = m at h
  have h := wf_nonceMix c nonce (wf_shuffleFrom c 255 (b := ⟨sessionSeeds c key, m⟩) h)
  generalize nonceMix c nonce _ = b at h
  exact ⟨h, wf_rebuildInv b.fwd⟩

@[simp] theorem shuffleFrom_regs (c : Config) (n : Nat) (b : Build) :
    (shuffleFrom c n b).regs = b.regs.advance c n := by
  induction n generalizing b with
  | zero => rfl
  | succ n ih =>
    rw [shuffleFrom, ih, shuffleStep_regs, Regs.afterDraw_eq_advance, Regs.advance_add, Nat.add_comm]

end Sys2Proof.Machine
end

