-- ==== Sys2Proof/Tests/Slice0.lean ====
section
/-! SUPPORT. The model's own tests: the spec's words and small vectors (95_test_vectors, under EX), the refusals of the
well-formedness checks, and a witness for the hypotheses of each statement. -/

open Sys2Proof Sys2Proof.Machine

namespace Sys2Proof.Tests

/-! ## Small states under EX (95 §2.3) -/

/-- "reset". -/
def ex : State := { State.reset with cfg := Config.ex }

/-- "regs". -/
def regs : State := { ex with r17 := some 0x12345, r32 := some 0xDEADBEEF }

/-- Three pairs of the reference session's tables (95 §2.5.4). -/
def pairs : Tables :=
  ⟨[(0x10, 0x26), (0x41, 0x43), (0xBC, 0x90)], [(0x26, 0x10), (0x43, 0x41), (0x90, 0xBC)]⟩

/-- "sess", with those three pairs only. -/
def sess : State := { ex with r17 := some 0x11196, r32 := some 0xB9DDF52A, tables := some pairs }

/-- A table that is its own inverse. -/
def tablesOf (m : Memory) : Tables := ⟨m, m⟩

/-- A session on the identity table. -/
def idSess : State := { sess with tables := some (tablesOf Memory.identity) }

/-- A state that waits for one command word. -/
def given (s : State) (w : Cmd) : State := { s with port := [.command w] }

/-- STATUS and RES after a command word. -/
def shows (s : State) (w : Cmd) : Option (BitVec 32 × BitVec 32) :=
  match step (given s w) with
  | .next t => some (t.status, t.res)
  | _ => none

/-- Both registers after a command word. -/
def registers (s : State) (w : Cmd) : Option (Option (BitVec 17) × Option (BitVec 32)) :=
  match step (given s w) with
  | .next t => some (t.r17, t.r32)
  | _ => none

/-- A byte of a space after a command word. -/
def byteAfter (s : State) (w : Cmd) (sp : Space) (a : Byte) : Option Byte :=
  match step (given s w) with
  | .next t => t.memRead sp a
  | _ => none

/-! ## Words, written out from R61 and R66 (95 §2.3 to §2.7) -/

theorem test_word_lfsrInit :
    decode 0x1001000000012345 = .ok (.lfsrInit .r32 0x12345) ∧ encode (.lfsrInit .r32 0x12345) = 0x1001000000012345 ∧
      decodeTableWord 64 0x1001000000012345 = some (.lfsrInit .r32 0x12345) := by decide

theorem test_word_lfsrStepFwd :
    decode 0x1101000000000000 = .ok (.lfsrStepFwd .r32) ∧ encode (.lfsrStepFwd .r32) = 0x1101000000000000 ∧
      decodeTableWord 64 0x1101000000000000 = some (.lfsrStepFwd .r32) := by decide

theorem test_word_lfsrStepBwd :
    decode 0x1200000000000000 = .ok (.lfsrStepBwd .r17) ∧ encode (.lfsrStepBwd .r17) = 0x1200000000000000 ∧
      decodeTableWord 64 0x1200000000000000 = some (.lfsrStepBwd .r17) := by decide

theorem test_word_lfsrNextByte :
    decode 0x1300000000000000 = .ok (.lfsrNextByte .r17) ∧ encode (.lfsrNextByte .r17) = 0x1300000000000000 ∧
      decodeTableWord 64 0x1300000000000000 = some (.lfsrNextByte .r17) := by decide

theorem test_word_lfsrPrevByte :
    decode 0x1401000000000000 = .ok (.lfsrPrevByte .r32) ∧ encode (.lfsrPrevByte .r32) = 0x1401000000000000 ∧
      decodeTableWord 64 0x1401000000000000 = some (.lfsrPrevByte .r32) := by decide

theorem test_word_lfsrRead :
    decode 0x1501000000000000 = .ok (.lfsrRead .r32) ∧ encode (.lfsrRead .r32) = 0x1501000000000000 ∧
      decodeTableWord 64 0x1501000000000000 = some (.lfsrRead .r32) := by decide

theorem test_word_nonceWr :
    decode 0x2005AA0000000000 = .ok (.nonceWr 0x05 0xAA) ∧ encode (.nonceWr 0x05 0xAA) = 0x2005AA0000000000 ∧
      decodeTableWord 64 0x2005AA0000000000 = some (.nonceWr 0x05 0xAA) := by decide

theorem test_word_beginSession :
    decode 0x2100000123456789 = .ok (.beginSession 0x0123456789) ∧ encode (.beginSession 0x0123456789) = 0x2100000123456789 ∧
      decodeTableWord 64 0x2100000123456789 = some (.beginSession 0x0123456789) := by decide

theorem test_word_endSession :
    decode 0x2200000000000000 = .ok (.endSession) ∧ encode (.endSession) = 0x2200000000000000 ∧
      decodeTableWord 64 0x2200000000000000 = some (.endSession) := by decide

theorem test_word_encryptSym :
    decode 0x2341000000000000 = .ok (.encryptSym 0x41) ∧ encode (.encryptSym 0x41) = 0x2341000000000000 ∧
      decodeTableWord 64 0x2341000000000000 = some (.encryptSym 0x41) := by decide

theorem test_word_decryptSym :
    decode 0x2443000000000000 = .ok (.decryptSym 0x43) ∧ encode (.decryptSym 0x43) = 0x2443000000000000 ∧
      decodeTableWord 64 0x2443000000000000 = some (.decryptSym 0x43) := by decide

theorem test_word_update :
    decode 0x2510000000000000 = .ok (.update 0x10) ∧ encode (.update 0x10) = 0x2510000000000000 ∧
      decodeTableWord 64 0x2510000000000000 = some (.update 0x10) := by decide

theorem test_word_tblRdFwd :
    decode 0x26BC000000000000 = .ok (.tblRdFwd 0xBC) ∧ encode (.tblRdFwd 0xBC) = 0x26BC000000000000 ∧
      decodeTableWord 64 0x26BC000000000000 = some (.tblRdFwd 0xBC) := by decide

theorem test_word_tblRdInv :
    decode 0x2743000000000000 = .ok (.tblRdInv 0x43) ∧ encode (.tblRdInv 0x43) = 0x2743000000000000 ∧
      decodeTableWord 64 0x2743000000000000 = some (.tblRdInv 0x43) := by decide

/-- Reserved bits (R67). -/
theorem test_reserved_bits :
    decode 0x1002000000012345 = .error (.reservedBits 0x10) ∧
      decode 0x1000010000012345 = .error (.reservedBits 0x10) ∧
      decode 0x1100000000000001 = .error (.reservedBits 0x11) ∧
      decode 0x2100010123456789 = .error (.reservedBits 0x21) ∧
      decode 0x2200000000000001 = .error (.reservedBits 0x22) ∧
      decode 0x2300010000000000 = .error (.reservedBits 0x23) := by decide

/-- Undefined opcodes, at the ends of R68's ranges, and the opcodes beside them. -/
theorem test_undefined_opcodes :
    decode 0x0000000000000000 = .error (.undefinedOpcode 0x00) ∧
      decode 0x0F00000000000000 = .error (.undefinedOpcode 0x0F) ∧
      decode 0x1600000000000000 = .error (.undefinedOpcode 0x16) ∧
      decode 0x1F00000000000000 = .error (.undefinedOpcode 0x1F) ∧
      decode 0x2800000000000000 = .error (.undefinedOpcode 0x28) ∧
      decode 0xFF00000000000000 = .error (.undefinedOpcode 0xFF) ∧
      decode 0x1000000000000000 = .ok (.lfsrInit .r17 0) ∧
      decode 0x20FFFF0000000000 = .ok (.nonceWr 0xFF 0xFF) ∧
      decode 0x2700000000000000 = .ok (.tblRdInv 0) := by decide

theorem test_partial_word :
    decodeBytes [0x22, 0, 0, 0, 0, 0, 0] = .error .partialWord ∧
      decodeBytes [0x22, 0, 0, 0, 0, 0, 0, 0, 0x15] = .ok (.endSession, [0x15]) := by decide

/-! ## The checks refuse (R8, R72, R73) -/

theorem test_config_accepts_ex :
    Config.ex.wellFormed = true := by decide

theorem test_config_refuses_taps17 :
    ({ Config.ex with taps17 := 0x02000 } : Config).taps17Ok = false ∧
      ({ Config.ex with taps17 := 0 } : Config).taps17Ok = false := by decide

theorem test_config_refuses_taps32 :
    ({ Config.ex with taps32 := 0x00200003 } : Config).taps32Ok = false := by decide

theorem test_config_refuses_prefix :
    ({ Config.ex with prefix32 := 0 } : Config).prefixOk = false ∧
      ({ Config.ex with prefix32 := 0 } : Config).wellFormed = false := by decide

theorem test_every_command_is_wellFormed :
    Instr.wellFormed (.lfsrInit .r17 0xFFFFFFFFFF) = true := by decide

theorem test_line_refuses_register :
    AsmLine.wellFormed ⟨.lfsrFwd, [.word ['r', '3', '3']]⟩ = false ∧
      AsmLine.wellFormed ⟨.lfsrFwd, [.word ['r', '3', '2']]⟩ = true := by decide

theorem test_line_refuses_wide_field :
    AsmLine.wellFormed ⟨.enc, [.num 256]⟩ = false ∧ AsmLine.wellFormed ⟨.enc, [.num 255]⟩ = true ∧
      AsmLine.wellFormed ⟨.sessBegin, [.num (2 ^ 40)]⟩ = false := by decide

theorem test_line_refuses_word_for_number :
    AsmLine.wellFormed ⟨.lfsrFwdN, [.word ['r', '1', '7'], .word ['x']]⟩ = false := by decide

theorem test_line_refuses_arity :
    AsmLine.wellFormed ⟨.sessEnd, [.num 0]⟩ = false ∧
      AsmLine.wellFormed ⟨.nonceLoad, List.replicate 255 (.num 0)⟩ = false ∧
      AsmLine.wellFormed ⟨.encStr, []⟩ = false := by decide +kernel

/-- 95 §2.3, and P5's style of source. -/
theorem test_assembles :
    assembleText "lfsr.init r17, 0x12345" = some [.command 0x1000000000012345] ∧
      assembleText "nonce.wr 5, 0xAA" = some [.command 0x2005AA0000000000] ∧
      assembleText "sess.end" = some [.command 0x2200000000000000] := by decide +kernel

/-- R73: the host reads RES after each symbol. -/
theorem test_assembles_pseudo :
    assembleText "enc.str 0x41, 0" = some [.command 0x2341000000000000, .read .res,
        .command 0x2300000000000000, .read .res] ∧
      assembleText "lfsr.fwdn r32, 2" = some [.command 0x1101000000000000, .command 0x1101000000000000] := by decide +kernel

/-! ## The LFSR family (95 §2.1 to §2.3; R102's corner cases) -/

theorem test_fwd17 :
    fwdStep Config.ex.taps17 0x10000 = 0x00001 ∧
      fwdStep Config.ex.taps17 0x1FFFF = 0x1FFFE ∧
      fwdStep Config.ex.taps17 0x12345 = 0x0468A := by decide +kernel

theorem test_fwd32 :
    fwdStep Config.ex.taps32 0x80000000 = 0x00000001 ∧
      fwdStep Config.ex.taps32 0x00000001 = 0x00000003 ∧
      fwdStep Config.ex.taps32 0xDEADBEEF = 0xBD5B7DDE := by decide +kernel

theorem test_bwd17 :
    bwdStep Config.ex.taps17 0x00001 = 0x10000 ∧
      bwdStep Config.ex.taps17 0x12345 = 0x191A2 ∧
      bwdStep Config.ex.taps17 0x0468A = 0x12345 := by decide +kernel

theorem test_bwd32 :
    bwdStep Config.ex.taps32 0x00000001 = 0x80000000 ∧
      bwdStep Config.ex.taps32 0xFFFFFFFF = 0x7FFFFFFF ∧
      bwdStep Config.ex.taps32 0xDEADBEEF = 0xEF56DF77 := by decide +kernel

theorem test_lfsrInit_status :
    shows ex 0x100000000001FFFF = some (0x002, 0) ∧
      shows regs 0x1000000000000000 = some (0x10E, 0) ∧
      shows ex 0x1001000100000000 = some (0x108, 0) ∧
      shows sess 0x1000000000000000 = some (0x40F, 0) := by decide +kernel

theorem test_lfsrInit_bounds :
    registers ex 0x100000000001FFFF = some (some 0x1FFFF, none) ∧
      registers ex 0x1000000000020000 = some (none, none) ∧
      registers ex 0x10010000FFFFFFFF = some (none, some 0xFFFFFFFF) ∧
      shows { ex with cfg := { Config.ex with taps17 := 0x02000 } } 0x1000000000000001 = some (0x208, 0) := by decide +kernel

theorem test_lfsrStepFwd_status :
    shows ex 0x1101000000000000 = some (0x508, 0) ∧
      shows regs 0x1101000000000000 = some (0x006, 0) ∧
      shows sess 0x1101000000000000 = some (0x40F, 0) := by decide +kernel

theorem test_lfsrStepFwd_register :
    registers regs 0x1101000000000000 = some (some 0x12345, some 0xBD5B7DDE) := by decide +kernel

theorem test_lfsrStepBwd_status :
    shows ex 0x1200000000000000 = some (0x508, 0) ∧
      shows regs 0x1200000000000000 = some (0x006, 0) ∧
      shows sess 0x1200000000000000 = some (0x40F, 0) := by decide +kernel

theorem test_lfsrStepBwd_register :
    registers regs 0x1200000000000000 = some (some 0x191A2, some 0xDEADBEEF) := by decide +kernel

theorem test_lfsrNextByte_status :
    shows ex 0x1300000000000000 = some (0x508, 0) ∧
      shows regs 0x1300000000000000 = some (0x006, 0x45) ∧
      shows sess 0x1300000000000000 = some (0x40F, 0) := by decide +kernel

theorem test_lfsrNextByte_register :
    registers regs 0x1300000000000000 = some (some 0x1451C, some 0xDEADBEEF) := by decide +kernel

theorem test_lfsrPrevByte_status :
    shows ex 0x1401000000000000 = some (0x508, 0) ∧
      shows regs 0x1401000000000000 = some (0x006, 0) ∧
      shows sess 0x1401000000000000 = some (0x40F, 0) := by decide +kernel

theorem test_lfsrPrevByte_register :
    registers { regs with r32 := some 0xADBEEF3B } 0x1401000000000000 =
        some (some 0x12345, some 0xDEADBEEF) := by decide +kernel

theorem test_lfsrRead_status :
    shows ex 0x1501000000000000 = some (0x508, 0) ∧
      shows regs 0x1501000000000000 = some (0x006, 0xDEADBEEF) ∧
      shows sess 0x1501000000000000 = some (0x007, 0xB9DDF52A) := by decide +kernel

/-! ## The session family (95 §2.4, §2.5) -/

theorem test_nonceWr :
    byteAfter ex 0x2005AA0000000000 .nonces 0x05 = some 0xAA ∧
      byteAfter sess 0x20FF010000000000 .nonces 0xFF = some 0x01 ∧
      byteAfter sess 0x20FF010000000000 .nonces 0x05 = some 0x00 := by decide +kernel

theorem test_nonceWr_status :
    shows ex 0x20FF010000000000 = some (0x000, 0) ∧
      shows regs 0x20FF010000000000 = some (0x006, 0) ∧
      shows sess 0x20FF010000000000 = some (0x007, 0) := by decide +kernel

theorem test_key_split :
    seed17 0x0123456789 = 0x16789 ∧
      seed32 Config.ex 0x0123456789 = 0x01012345 ∧
      seed17 0xABCDEF0123 = 0x10123 ∧
      seed32 Config.ex 0xABCDEF0123 = 0x01ABCDEF := by decide +kernel

/-- The first shuffle draws: j = CC at i = 255, then 9C at i = 254 (95 §2.5.2). -/
theorem test_first_draws :
    shuffleIndex (sessionSeeds Config.ex 0x0123456789).drawByte 255 = 0xCC ∧
      shuffleIndex ((sessionSeeds Config.ex 0x0123456789).afterDraw Config.ex).drawByte 254 = 0x9C := by decide +kernel

/-- One step of the default nonce pass, by hand from R140: the draw is 0x96 ^ 0x2A = 0xBC, so j = 1 + F[10] +
NONCE[10] + BC = 1 + 26 + 02 + BC = E5, and F[10], which is 26, changes places with F[E5], which is 0. -/
theorem test_default_pass_step :
    (defaultMixStep Config.ex [(0x10, 0x02)] (0x01, ⟨⟨0x11196, 0xB9DDF52A⟩, pairs.fwd⟩) 0x10).1 = 0xE5 ∧
      Memory.read (defaultMixStep Config.ex [(0x10, 0x02)] (0x01, ⟨⟨0x11196, 0xB9DDF52A⟩, pairs.fwd⟩)
        0x10).2.fwd 0xE5 = 0x26 := by decide +kernel

theorem test_shuffle_bias :
    addresses.countP (fun x => (shuffleIndex x 2).toNat == 0) = 86 ∧
      addresses.countP (fun x => (shuffleIndex x 2).toNat == 2) = 85 := by decide +kernel

theorem test_beginSession_in_session :
    shows sess 0x2100000000000000 = some (0x40F, 0) ∧
      registers sess 0x2100000000000000 = some (some 0x11196, some 0xB9DDF52A) := by decide +kernel

/-- R205: a malformed prefix and a key without its high bits; R204: malformed taps. -/
theorem test_beginSession_malformed :
    shows { ex with cfg := { Config.ex with prefix32 := 0 } } 0x210000000000FFFF = some (0x108, 0) ∧
      shows { ex with cfg := { Config.ex with taps32 := 0x00200003 } } 0x2100000123456789 = some (0x208, 0) := by decide +kernel

theorem test_endSession_status :
    shows ex 0x2200000000000000 = some (0x308, 0) ∧
      shows regs 0x2200000000000000 = some (0x30E, 0) ∧
      shows sess 0x2200000000000000 = some (0x000, 0) := by decide +kernel

theorem test_endSession_invalidates :
    registers sess 0x2200000000000000 = some (none, none) ∧
      byteAfter sess 0x2200000000000000 .fwd 0x41 = none := by decide +kernel

/-! ## The symbol family (95 §2.6) -/

theorem test_encryptSym_result :
    shows sess 0x2341000000000000 = some (0x007, 0x43) ∧
      registers sess 0x2341000000000000 = some (some 0x196CE, some 0xDDF52A65) ∧
      shows regs 0x2341000000000000 = some (0x30E, 0) := by decide +kernel

theorem test_encryptSym_tables :
    byteAfter sess 0x2341000000000000 .fwd 0x41 = some 0x90 ∧
      byteAfter sess 0x2341000000000000 .fwd 0xBC = some 0x43 ∧
      byteAfter sess 0x2341000000000000 .invs 0x90 = some 0x41 ∧
      byteAfter sess 0x2341000000000000 .invs 0x43 = some 0xBC := by decide +kernel

theorem test_decryptSym_result :
    shows sess 0x2443000000000000 = some (0x007, 0x41) ∧
      registers sess 0x2443000000000000 = some (some 0x196CE, some 0xDDF52A65) ∧
      shows regs 0x2443000000000000 = some (0x30E, 0) := by decide +kernel

theorem test_decryptSym_tables :
    byteAfter sess 0x2443000000000000 .fwd 0x41 = some 0x90 ∧
      byteAfter sess 0x2443000000000000 .fwd 0xBC = some 0x43 ∧
      byteAfter sess 0x2443000000000000 .invs 0x90 = some 0x41 ∧
      byteAfter sess 0x2443000000000000 .invs 0x43 = some 0xBC := by decide +kernel

theorem test_update_result :
    shows sess 0x2510000000000000 = some (0x007, 0) ∧
      byteAfter sess 0x2510000000000000 .fwd 0x10 = some 0x90 ∧
      byteAfter sess 0x2510000000000000 .fwd 0xBC = some 0x26 ∧
      shows ex 0x2500000000000000 = some (0x308, 0) := by decide +kernel

theorem test_update_fixed_point :
    byteAfter sess 0x25BC000000000000 .fwd 0xBC = some 0x90 ∧
      byteAfter sess 0x25BC000000000000 .invs 0x90 = some 0xBC ∧
      registers sess 0x25BC000000000000 = some (some 0x196CE, some 0xDDF52A65) := by decide +kernel

theorem test_tblRdFwd :
    shows sess 0x26BC000000000000 = some (0x007, 0x90) ∧
      registers sess 0x26BC000000000000 = some (some 0x11196, some 0xB9DDF52A) ∧
      shows ex 0x2600000000000000 = some (0x308, 0) := by decide +kernel

theorem test_tblRdInv :
    shows sess 0x2743000000000000 = some (0x007, 0x41) ∧
      registers sess 0x2743000000000000 = some (some 0x11196, some 0xB9DDF52A) ∧
      shows regs 0x2700000000000000 = some (0x30E, 0) := by decide +kernel

/-! ## The step and the host -/

theorem test_illegal_word_status :
    shows ex 0x0000000000000000 = some (0x608, 0) ∧
      shows sess 0x2300010000000000 = some (0x60F, 0) := by decide +kernel

/-- An instruction placed for the very next step runs from reset (log entry 1). -/
theorem test_withFetchWord_runs :
    (match step (State.reset.withFetchWord 64 0x2005AA0000000000) with
        | .next t => t.memRead .nonces 0x05
        | _ => none) = some 0xAA := by decide +kernel

/-! ## Witnesses: the hypotheses of each statement, met together -/

theorem tablesOf_inverse {m : Memory} (h : ∀ x, Memory.read m x = x) : (tablesOf m).Inverse :=
  ⟨fun x => by rw [tablesOf, h, h], fun y => by rw [tablesOf, h, h]⟩

theorem tablesOf_wf {m : Memory} (h : Memory.wf m) : Memory.wf (tablesOf m).fwd ∧ Memory.wf (tablesOf m).inv :=
  ⟨h, h⟩

/-- The identity table's inverse is itself (R26). -/
theorem identityTables_inverse : (tablesOf Memory.identity).Inverse := tablesOf_inverse Memory.read_identity

/-- A session on any inverse tables meets the invariant. -/
theorem session_inv {t : Tables} (hi : t.Inverse) (hw : Memory.wf t.fwd ∧ Memory.wf t.inv) :
    State.Inv { sess with tables := some t } := by
  refine ⟨?_, fun _ => ⟨rfl, rfl⟩, ?_, ⟨Memory.wf_nil, ?_⟩, fun h => absurd rfl h⟩
  · intro sel x hx
    cases sel <;> cases hx
    · exact ⟨by decide, show tapsWellFormed Config.ex.taps17 = true by decide⟩
    · exact ⟨by decide, show tapsWellFormed Config.ex.taps32 = true by decide⟩
  · intro u hu
    cases hu
    exact hi
  · intro u hu
    cases hu
    exact hw

/-- The session on the identity table meets the invariant. -/
theorem idSess_inv : idSess.Inv :=
  session_inv identityTables_inverse (tablesOf_wf Memory.wf_identity)

/-- Waiting for a word does not touch the invariant. -/
theorem given_inv {s : State} (h : s.Inv) (w : Cmd) : (given s w).Inv :=
  ⟨fun sel x hx => h.reg sel x (by cases sel <;> exact hx), h.valid, h.inverse, h.arrays, h.sticky⟩

/-- The identity is a permutation (R25). -/
theorem identity_permutation : Memory.Permutation Memory.identity :=
  fun y => ⟨y, Memory.read_identity y, fun z hz => (Memory.read_identity z).symm.trans hz⟩

/-- BEGIN_SESSION of a key, from a state with some nonce: what it leaves, by its definition. -/
def begun (nonce : Memory) (key : Imm) : State :=
  (({ ex with nonce := nonce } : State).putSession (buildSession Config.ex nonce key)).complete

theorem exec_begun (nonce : Memory) (key : Imm) (h : seed32 Config.ex key ≠ 0) :
    exec (.beginSession key) { ex with nonce := nonce } = .next (begun nonce key) := by
  have h17 : (seed17 key == 0) = false := by
    rw [beq_eq_false_iff_ne]
    intro h0
    have h1 : (seed17 key).getLsbD 16 = true := by
      rw [seed17, BitVec.getLsbD_append, if_neg (by decide)]
      decide
    rw [h0] at h1
    cases h1
  have h32 : (seed32 Config.ex key == 0) = false := beq_eq_false_iff_ne.2 h
  have t17 : tapsWellFormed Config.ex.taps17 = true := by decide
  have t32 : tapsWellFormed Config.ex.taps32 = true := by decide
  have e : exec (.beginSession key) { ex with nonce := nonce } = State.finish { ex with nonce := nonce }
      (if tapsWellFormed Config.ex.taps17 = true ∧ tapsWellFormed Config.ex.taps32 = true ∧
          (seed17 key == 0) = false ∧ (seed32 Config.ex key == 0) = false
        then .ok (({ ex with nonce := nonce } : State).putSession (buildSession Config.ex nonce key))
        else .error .invalidSeed) := by
    simp only [exec, execBeginSession, ex, State.active, t17, t32, h17, h32]
    rfl
  rw [e, if_pos ⟨t17, t32, h17, h32⟩]
  rfl

/-! ### Encoding -/

theorem witness_DecodeEncodeRoundTrip :
    Instr.wellFormed (.nonceWr 0xFF 0xFF) = true ∧ Instr.wellFormed (.beginSession 0xFFFFFFFFFF) = true := by
  decide

theorem witness_DecodedWordIsTheCommandsWord : decode 0x23FF000000000000 = .ok (.encryptSym 0xFF) := by decide

/-- The lowest and the highest reserved bit of two rows. -/
theorem witness_ReservedBitsRaiseIllegalCmd :
    (⟨0x2200000000000000, 0xFFFFFFFFFFFFFFFF, fun _ => .endSession⟩ : OpRow) ∈ opcodeMap ∧
      Cmd.opc 0x2200000000000001 = Cmd.opc 0x2200000000000000 ∧
      (∃ k, (0x2200000000000001 : Cmd).getLsbD k = true ∧ (0xFFFFFFFFFFFFFFFF : Cmd).getLsbD k = true ∧
        (0x2200000000000000 : Cmd).getLsbD k = false) ∧
      (⟨0x1100000000000000, 0xFFFEFFFFFFFFFFFF, fun w => .lfsrStepFwd w.sel⟩ : OpRow) ∈ opcodeMap ∧
      Cmd.opc 0x1180000000000000 = Cmd.opc 0x1100000000000000 ∧
      ∃ k, (0x1180000000000000 : Cmd).getLsbD k = true ∧ (0xFFFEFFFFFFFFFFFF : Cmd).getLsbD k = true ∧
        (0x1100000000000000 : Cmd).getLsbD k = false := by
  refine ⟨List.mem_iff_getElem.2 ⟨8, by decide, rfl⟩, by decide, ⟨0, by decide⟩,
    List.mem_iff_getElem.2 ⟨1, by decide, rfl⟩, by decide, 55, by decide⟩

/-- Each of the three ranges of R68, at both its ends. -/
theorem witness_UndefinedOpcodesRaiseIllegalCmd :
    (Cmd.opc 0x0000000000000000).toNat ≤ 0x0F ∧ (Cmd.opc 0x0F00000000000000).toNat ≤ 0x0F ∧
      (0x16 ≤ (Cmd.opc 0x1600000000000000).toNat ∧ (Cmd.opc 0x1600000000000000).toNat ≤ 0x1F) ∧
      (0x16 ≤ (Cmd.opc 0x1F00000000000000).toNat ∧ (Cmd.opc 0x1F00000000000000).toNat ≤ 0x1F) ∧
      0x28 ≤ (Cmd.opc 0x2800000000000000).toNat ∧ 0x28 ≤ (Cmd.opc 0xFF00000000000000).toNat := by decide

theorem witness_CommandBytesAreMostSignificantFirst :
    0 < 8 ∧ 7 < 8 ∧ ([] : List Byte).length < 8 ∧ ([0x22, 0, 0, 0, 0, 0, 0] : List Byte).length < 8 := by decide

theorem witness_AssembledWordsAreCommands :
    assemble ⟨.lfsrFwd, [.word ['r', '3', '2']]⟩ = some [.command 0x1101000000000000] ∧
      HostInput.command 0x1101000000000000 ∈ [HostInput.command 0x1101000000000000] := by
  decide +kernel

/-! ### The step and the host -/

theorem witness_StepRunsTheDecodedCommand :
    (given sess 0x2341000000000000).port = .command 0x2341000000000000 :: [] ∧
      decode 0x2341000000000000 = .ok (.encryptSym 0x41) := by decide

theorem witness_StepReportsIllegalWords :
    (given sess 0x2300010000000000).port = .command 0x2300010000000000 :: [] ∧
      decode 0x2300010000000000 = .error (.reservedBits 0x23) := by decide

theorem witness_HostReadsAndWaitingChangeNothing :
    ({ sess with port := [.read .res, .reset] } : State).port = .read .res :: [.reset] ∧
      ({ sess with port := [.read .status] } : State).port = .read .status :: [] ∧ sess.port = [] :=
  ⟨rfl, rfl, rfl⟩

theorem witness_ResetInputSetsEveryElement :
    ({ sess with port := [.reset, .read .res] } : State).port = .reset :: [.read .res] := rfl

theorem witness_StepKeepsTheBlockConsistent :
    (given idSess 0x2000AA0000000000).Inv ∧
      step (given idSess 0x2000AA0000000000) = .next ({ idSess with nonce := [(0x00, 0xAA)] } : State).complete :=
  ⟨given_inv idSess_inv _, rfl⟩

theorem witness_ConfigurationNeverChanges :
    step { sess with port := [.reset] } = .next sess.hardReset := rfl

theorem witness_ErrAndStickyAreWrittenAsStated :
    accept (.command 0x2200000000000000) ex = .next (ex.raise .sessionNotActive) ∧
      accept (.command 0x2005AA0000000000) ex = .next ({ ex with nonce := [(0x05, 0xAA)] } : State).complete ∧
      (given (ex.raise .sessionNotActive) 0x1500000000000000).sticky = true ∧
      (given (ex.raise .sessionNotActive) 0x1500000000000000).port.head? ≠ some .reset ∧
      ∃ t, step (given (ex.raise .sessionNotActive) 0x1500000000000000) = .next t :=
  ⟨rfl, rfl, rfl, by decide, _, rfl⟩

theorem witness_FailingCommandsChangeOnlyStatus :
    accept (.command 0x1500000000000000) ex = .next (ex.raise .regNotInit) ∧
      (ex.raise .regNotInit).err = some .regNotInit := ⟨rfl, rfl⟩

theorem witness_CommandsRaiseOnlyTheirErrors :
    idSess.Inv ∧ exec (.lfsrStepFwd .r17) idSess = .next (idSess.raise .sessionAlreadyActive) ∧
      (idSess.raise .sessionAlreadyActive).err = some .sessionAlreadyActive := ⟨idSess_inv, rfl, rfl⟩

/-- Each clause of the priority order, the last one with and without a session. -/
theorem witness_ErrorPriority :
    decode 0xFF00000000000000 = .error (.undefinedOpcode 0xFF) ∧
      (needsIdle (.beginSession 0) = true ∧ sess.active = true) ∧
      (needsSession .endSession = true ∧ ex.active = false) ∧
      (checkedReg (.lfsrStepFwd .r17) = some .r17 ∧ (needsIdle (.lfsrStepFwd .r17) = true → ex.active = false) ∧
        ex.getReg .r17 = none) ∧
      (checkedReg (.lfsrRead .r32) = some .r32 ∧
        (needsIdle (.lfsrRead .r32) = true → ({ sess with r32 := none } : State).active = false) ∧
        ({ sess with r32 := none } : State).getReg .r32 = none) := by
  decide

theorem witness_NonceIsWrittenOnlyByNonceWrAndReset :
    step (given sess 0x1501000000000000) = .next (sess.setRes (0xB9DDF52A : BitVec 32)).complete ∧
      (given sess 0x1501000000000000).port.head? ≠ some .reset ∧
      ∀ w idx val, (given sess 0x1501000000000000).port.head? = some (.command w) →
        decode w ≠ .ok (.nonceWr idx val) := by
  refine ⟨rfl, by decide, fun w idx val h => ?_⟩
  obtain rfl : 0x1501000000000000 = w := HostInput.command.inj (Option.some.inj h)
  exact fun h => by cases h

/-- Both ways a command leaves RES alone. -/
theorem witness_ResIsWrittenOnlyByItsCommands :
    (exec (.nonceWr 0 0) sess = .next sess.complete ∧ writesRes (.nonceWr 0 0) = false) ∧
      exec (.tblRdFwd 0) ex = .next (ex.raise .sessionNotActive) ∧
      (ex.raise .sessionNotActive).err ≠ none := ⟨⟨rfl, rfl⟩, rfl, by decide⟩

/-! ### The LFSR family -/

/-- The least and the greatest seed of each register. -/
theorem witness_LfsrInitLoadsTheSeed :
    ex.active = false ∧ (∀ sel, tapsWellFormed (selTaps ex.cfg sel) = true) ∧
      ((1 : Imm) ≠ 0 ∧ (1 : Imm).toNat ≤ 2 ^ Reg.r17.width - 1) ∧
      ((0x1FFFF : Imm) ≠ 0 ∧ (0x1FFFF : Imm).toNat ≤ 2 ^ Reg.r17.width - 1) ∧
      (0xFFFFFFFF : Imm) ≠ 0 ∧ (0xFFFFFFFF : Imm).toNat ≤ 2 ^ Reg.r32.width - 1 :=
  ⟨rfl, fun sel => by cases sel <;> decide, by decide, by decide, by decide, by decide⟩

/-- Also for the backward step and the two byte commands, which have the same hypotheses. -/
theorem witness_LfsrStepFwdShiftsInTheFeedback :
    regs.active = false ∧ regs.getReg .r17 = some 0x12345 ∧ regs.getReg .r32 = some 0xDEADBEEF := by decide

theorem witness_LfsrStepBwdRecoversThePredecessor :
    regs.active = false ∧ regs.getReg .r17 = some 0x12345 ∧ regs.getReg .r32 = some 0xDEADBEEF := by decide

theorem witness_LfsrNextByteReturnsTheLowByte :
    regs.active = false ∧ regs.getReg .r17 = some 0x12345 ∧ regs.getReg .r32 = some 0xDEADBEEF := by decide

theorem witness_LfsrPrevByteStepsBackEightTimes :
    regs.active = false ∧ regs.getReg .r17 = some 0x12345 ∧ regs.getReg .r32 = some 0xDEADBEEF := by decide

theorem witness_LfsrReadReturnsTheRegister :
    sess.getReg .r17 = some 0x11196 ∧ sess.getReg .r32 = some 0xB9DDF52A := by decide

theorem witness_StepsAreInverse :
    tapsWellFormed Config.ex.taps17 = true ∧ tapsWellFormed Config.ex.taps32 = true ∧
      tapsWellFormed (0x1#1) = true := by decide

theorem witness_StepsKeepTheStateNonzero :
    tapsWellFormed Config.ex.taps17 = true ∧ tapsWellFormed Config.ex.taps32 = true ∧
      (0x10000 : BitVec 17) ≠ 0 := by decide

theorem witness_StepWithoutTheTopTapIsNotInvertible :
    0 < 17 ∧ (0x02000 : BitVec 17).getLsbD (17 - 1) = false ∧ (0 : BitVec 32).getLsbD (32 - 1) = false := by
  decide

theorem witness_ByteWindowAfterADraw : 8 ≤ 17 ∧ 8 + 8 < 17 ∧ 0 < 8 ∧ 7 < 8 ∧ 23 + 8 < 32 := by decide

theorem witness_ByteUndoRestoresTheRegister :
    regs.active = false ∧ regs.getReg .r17 = some 0x12345 ∧
      tapsWellFormed (selTaps regs.cfg .r17) = true := by decide

/-- More draws than undos, and fewer. -/
theorem witness_RegisterOffsetAfterDrawsAndUndos :
    regs.active = false ∧ regs.getReg .r32 = some 0xDEADBEEF ∧
      tapsWellFormed (selTaps regs.cfg .r32) = true ∧ 1 ≤ 2 ∧ ¬ 2 ≤ 1 := by decide

/-! ### The session family -/

theorem witness_NonceWrWritesOneByte : (0x05 : Byte) ≠ 0x06 := by decide

theorem witness_KeySplitsIntoTheSeeds : Config.ex.prefix32 ≠ 0 := by decide

theorem witness_ShuffleSwapsWithTheDrawnIndex : 1 ≤ 1 ∧ 1 ≤ 255 ∧ 255 ≤ 255 := by decide

theorem witness_ShuffleIndexBias : 254 ≤ 255 ∧ 0 ≤ 254 ∧ 0 < 256 % 255 ∧ ¬ 1 < 256 % 255 := by decide

theorem witness_DefaultNoncePassStep : Config.ex.nonceMix = .defaultPass := rfl

theorem witness_NoncePassKeepsItsContract : Memory.Permutation Memory.identity := identity_permutation

theorem witness_RebuiltInverseIsExact : Memory.Permutation Memory.identity := identity_permutation

/-- A prefix, or a key with high bits. -/
theorem witness_BeginSessionStartsASession :
    ex.active = false ∧ tapsWellFormed ex.cfg.taps17 = true ∧ tapsWellFormed ex.cfg.taps32 = true ∧
      ex.cfg.prefix32 ≠ 0 ∧ 2 ^ 16 ≤ (0x10000 : Imm).toNat := by decide

theorem witness_EndSessionInvalidatesEverything : sess.active = true := by decide

/-! ### The symbol family -/

theorem witness_EncryptSymLooksUpThenUpdates :
    sess.r17 = some 0x11196 ∧ sess.r32 = some 0xB9DDF52A ∧ sess.tables = some pairs := by decide

theorem witness_DecryptSymUpdatesWithThePlaintext :
    sess.r17 = some 0x11196 ∧ sess.r32 = some 0xB9DDF52A ∧ sess.tables = some pairs := by decide

theorem witness_UpdateIsEncryptWithoutTheResult :
    sess.r17 = some 0x11196 ∧ sess.r32 = some 0xB9DDF52A ∧ sess.tables = some pairs := by decide

theorem witness_TableReadsReturnTheEntry : sess.tables = some pairs := by decide

theorem witness_UpdateKeepsTheTablesInverse : (tablesOf Memory.identity).Inverse := identityTables_inverse

/-- A session of the reference key, and commands of both kinds. -/
theorem witness_SessionRegisterOffset :
    ex.active = false ∧ exec (.beginSession 0x0123456789) { ex with nonce := [] } = .next (begun [] 0x0123456789) ∧
      (begun [] 0x0123456789).active = true ∧
      Instr.endSession ∉ [Instr.encryptSym 0x41, .tblRdFwd 0, .update 0x10] :=
  ⟨rfl, exec_begun [] _ (by decide), rfl, by decide⟩

/-- Two sessions of one key with different nonces and different symbols. -/
theorem witness_DrawsDoNotDependOnData :
    ex.active = false ∧ ({ ex with nonce := [(0x05, 0xAA)] } : State).active = false ∧
      ({ ex with nonce := [] } : State).cfg = ({ ex with nonce := [(0x05, 0xAA)] } : State).cfg ∧
      exec (.beginSession 0x0123456789) { ex with nonce := [] } = .next (begun [] 0x0123456789) ∧
      exec (.beginSession 0x0123456789) { ex with nonce := [(0x05, 0xAA)] } =
        .next (begun [(0x05, 0xAA)] 0x0123456789) ∧
      (begun [] 0x0123456789).active = true ∧ (begun [(0x05, 0xAA)] 0x0123456789).active = true ∧
      Instr.endSession ∉ [Instr.encryptSym 0x41] ∧ Instr.endSession ∉ [Instr.tblRdInv 0, .decryptSym 0x43] ∧
      [Instr.encryptSym 0x41].countP isSymbolCommand =
        [Instr.tblRdInv 0, .decryptSym 0x43].countP isSymbolCommand :=
  ⟨rfl, rfl, rfl, exec_begun [] _ (by decide), exec_begun _ _ (by decide), rfl, rfl, by decide, by decide,
    by decide⟩

theorem witness_DecryptionUndoesEncryption :
    ex.active = false ∧ (∀ x, ({ ex with nonce := [] } : State).memRead .nonces x = ex.memRead .nonces x) ∧
      exec (.beginSession 0x0123456789) { ex with nonce := [] } = .next (begun [] 0x0123456789) ∧
      (begun [] 0x0123456789).active = true :=
  ⟨rfl, fun _ => rfl, exec_begun [] _ (by decide), rfl⟩

/-- The drawn index is v, and is not. -/
theorem witness_UpdateFixedPoint : (tablesOf Memory.identity).Inverse ∧ (0x41 : Byte) ≠ 0xBC := ⟨identityTables_inverse, by decide⟩

/-- The draw of this session is BC: it is the symbol, and is not. -/
theorem witness_RepeatedPlaintextLeaksTheDraw :
    idSess.r17 = some 0x11196 ∧ idSess.r32 = some 0xB9DDF52A ∧ idSess.tables = some (tablesOf Memory.identity) ∧
      (tablesOf Memory.identity).Inverse ∧ lowByte (0x11196 : BitVec 17) ^^^ lowByte (0xB9DDF52A : BitVec 32) = 0xBC ∧
      (0xBC : Byte) ≠ 0x41 :=
  ⟨rfl, rfl, rfl, identityTables_inverse, by decide, by decide⟩

theorem witness_RepeatedCiphertextReturnsTheDraw :
    idSess.r17 = some 0x11196 ∧ idSess.r32 = some 0xB9DDF52A ∧ idSess.tables = some (tablesOf Memory.identity) ∧
      (tablesOf Memory.identity).Inverse ∧
      lowByte (0x11196 : BitVec 17) ^^^ lowByte (0xB9DDF52A : BitVec 32) ≠
        Memory.read (tablesOf Memory.identity).inv 0x41 := by
  refine ⟨rfl, rfl, rfl, identityTables_inverse, ?_⟩
  rw [tablesOf, Memory.read_identity]
  decide

end Sys2Proof.Tests
end

/-! # Scope (00_scope): the step runs the host's next word, and the configuration stays -/

namespace Sys2Proof.Machine

variable {s t : State}

/-! ## A step with an input at the port (R7, R69) -/

theorem step_of_port_cons {i : HostInput} {rest : List HostInput} (hp : s.port = i :: rest) :
    step s = accept i { s with port := rest } := by
  simp [step, State.takeInput, hp]

theorem accept_command_of_decode_ok {w : Cmd} {i : Instr} (hd : decode w = .ok i) (s : State) :
    accept (.command w) s = exec i s := by
  simp [accept, hd]

/-- Settles O9: the step accepts the port's first word, and accepting a word that decodes is `exec`. -/
theorem stepRunsTheDecodedCommand : Obligations.StepRunsTheDecodedCommand := by
  intro s w rest i hp hd
  rw [step_of_port_cons hp, accept_command_of_decode_ok hd]

/-! ## The configuration (R8, R230) -/

/-- The end of a command writes ERR and STICKY only, so the configuration is kept if the writes keep it. -/
theorem State.finish_cfg {r : Except Error State} (h : s.finish r = .next t)
    (hr : ∀ u, r = .ok u → u.cfg = s.cfg) : t.cfg = s.cfg := by
  rcases s.finish_cases r with ⟨e, rfl, h'⟩ | ⟨u, rfl, h'⟩ <;> rw [h'] at h <;> cases h
  · rfl
  · exact hr u rfl

/-- The same for the commands whose one check yields the value `x` that their writes `f` use. -/
theorem State.finish_map_cfg {α : Type} {r : Except Error α} {f : α → State}
    (h : s.finish (r.map f) = .next t) (hf : ∀ x, (f x).cfg = s.cfg) : t.cfg = s.cfg := by
  refine State.finish_cfg h fun u hu => ?_
  obtain ⟨x, -, rfl⟩ := except_map_eq_ok_iff.1 hu
  exact hf x

theorem execLfsrInit_cfg {sel : Reg} {seed : Imm} (h : execLfsrInit sel seed s = .next t) :
    t.cfg = s.cfg := by
  refine State.finish_cfg h fun u hu => ?_
  split_ifs at hu
  cases hu
  exact s.setReg_cfg sel _

theorem execBeginSession_cfg {key : Imm} (h : execBeginSession key s = .next t) :
    t.cfg = s.cfg := by
  refine State.finish_cfg h fun u hu => ?_
  split_ifs at hu
  cases hu
  exact s.putSession_cfg _

theorem execNonceWr_cfg {idx val : Byte} (h : execNonceWr idx val s = .next t) : t.cfg = s.cfg := by
  refine State.finish_cfg h fun u hu => ?_
  cases hu
  rfl

/-- No command changes the configuration (R8). -/
theorem exec_cfg {i : Instr} (h : exec i s = .next t) : t.cfg = s.cfg := by
  cases i with
  | lfsrInit sel seed => exact execLfsrInit_cfg h
  | nonceWr idx val => exact execNonceWr_cfg h
  | beginSession key => exact execBeginSession_cfg h
  | lfsrStepFwd sel | lfsrStepBwd sel | lfsrNextByte sel | lfsrPrevByte sel =>
    exact State.finish_map_cfg h fun _ => s.setReg_cfg sel _
  | lfsrRead _ | endSession | encryptSym _ | decryptSym _ | update _ | tblRdFwd _ | tblRdInv _ =>
    exact State.finish_map_cfg h fun _ => rfl

/-- No input of the host changes the configuration: a command, an illegal word, a read or reset (R8, R230). -/
theorem accept_cfg {i : HostInput} (h : accept i s = .next t) : t.cfg = s.cfg := by
  cases i with
  | command w =>
    rcases accept_command_cases h with ⟨e, rfl⟩ | ⟨c, u, hd, -, -⟩
    · rfl
    · rw [accept_command_of_decode_ok hd] at h
      exact exec_cfg h
  | read r => cases h; rfl
  | reset => cases h; rfl

/-- Settles O19: a step that waits changes nothing, and no input it accepts changes the configuration. -/
theorem configurationNeverChanges : Obligations.ConfigurationNeverChanges := by
  intro s t h
  rcases step_cases h with ⟨-, rfl⟩ | ⟨i, rest, -, h⟩
  · rfl
  · exact accept_cfg (s := { s with port := rest }) h

end Sys2Proof.Machine

/-! # State (10_state): what a command that succeeds writes -/

namespace Sys2Proof.Machine

variable {s t u : State}

/-! ## What the shared checks let through -/

theorem State.readReg_eq_ok_iff {q : Reg} {x : BitVec q.width} :
    s.readReg q = .ok x ↔ s.getReg q = some x := by
  unfold State.readReg
  cases s.getReg q <;> simp

theorem State.ownReg_eq_ok_iff {q : Reg} {x : BitVec q.width} :
    s.ownReg q = .ok x ↔ s.active = false ∧ s.getReg q = some x := by
  cases ha : s.active with
  | true => simp [State.ownReg_of_active ha]
  | false => simp [State.ownReg_of_idle ha, State.readReg_eq_ok_iff]

theorem State.sessionTables_eq_ok_iff {tb : Tables} : s.sessionTables = .ok tb ↔ s.tables = some tb := by
  unfold State.sessionTables
  cases s.tables <;> simp

theorem State.active_of_tables {tb : Tables} (h : s.tables = some tb) : s.active = true :=
  State.active_eq_true.2 ⟨tb, h⟩

/-! ## What a command that succeeds writes -/

/-- `Writes s i u`: the checks of the command `i` pass in `s`, and `u` is `s` with the command's writes,
before its end writes ERR. One constructor per command, with what its checks have established. -/
inductive Writes (s : State) : Instr → State → Prop
  | lfsrInit {sel : Reg} {seed : Imm} : s.active = false → tapsWellFormed (selTaps s.cfg sel) = true →
      seedInvalid sel.width seed = false →
      Writes s (.lfsrInit sel seed) (s.setReg sel (seed.setWidth sel.width))
  | lfsrStepFwd {sel : Reg} {x : BitVec sel.width} : s.active = false → s.getReg sel = some x →
      Writes s (.lfsrStepFwd sel) (s.setReg sel (fwdStep (selTaps s.cfg sel) x))
  | lfsrStepBwd {sel : Reg} {x : BitVec sel.width} : s.active = false → s.getReg sel = some x →
      Writes s (.lfsrStepBwd sel) (s.setReg sel (bwdStep (selTaps s.cfg sel) x))
  | lfsrNextByte {sel : Reg} {x : BitVec sel.width} : s.active = false → s.getReg sel = some x →
      Writes s (.lfsrNextByte sel) ((s.setReg sel (nextByteState (selTaps s.cfg sel) x)).setRes (lowByte x))
  | lfsrPrevByte {sel : Reg} {x : BitVec sel.width} : s.active = false → s.getReg sel = some x →
      Writes s (.lfsrPrevByte sel) (s.setReg sel (prevByteState (selTaps s.cfg sel) x))
  | lfsrRead {sel : Reg} {x : BitVec sel.width} : s.getReg sel = some x →
      Writes s (.lfsrRead sel) (s.setRes x)
  | nonceWr {idx val : Byte} :
      Writes s (.nonceWr idx val) { s with nonce := Memory.write s.nonce idx val }
  | beginSession {key : Imm} : s.active = false → tapsWellFormed s.cfg.taps17 = true →
      tapsWellFormed s.cfg.taps32 = true → seed17 key ≠ 0 → seed32 s.cfg key ≠ 0 →
      Writes s (.beginSession key) (s.putSession (buildSession s.cfg s.nonce key))
  | endSession : s.active = true →
      Writes s .endSession { s with tables := none, r17 := none, r32 := none }
  | encryptSym {v : Byte} {x : Session} : s.session = .ok x →
      Writes s (.encryptSym v) ((s.putSession (x.update s.cfg v)).setRes (Memory.read x.tables.fwd v))
  | decryptSym {c : Byte} {x : Session} : s.session = .ok x →
      Writes s (.decryptSym c) ((s.putSession (x.update s.cfg (Memory.read x.tables.inv c))).setRes
        (Memory.read x.tables.inv c))
  | update {v : Byte} {x : Session} : s.session = .ok x →
      Writes s (.update v) (s.putSession (x.update s.cfg v))
  | tblRdFwd {idx : Byte} {tb : Tables} : s.tables = some tb →
      Writes s (.tblRdFwd idx) (s.setRes (Memory.read tb.fwd idx))
  | tblRdInv {idx : Byte} {tb : Tables} : s.tables = some tb →
      Writes s (.tblRdInv idx) (s.setRes (Memory.read tb.inv idx))

/-- The end of a command whose checks and writes come to `r`, by what `r` can be. -/
theorem State.finish_writes {i : Instr} {r : Except Error State} (h : s.finish r = .next t)
    (hr : ∀ u, r = .ok u → Writes s i u) :
    (∃ e, t = s.raise e) ∨ ∃ u, Writes s i u ∧ t = u.complete := by
  rcases s.finish_cases r with ⟨e, rfl, h'⟩ | ⟨u, rfl, h'⟩ <;> rw [h'] at h <;> cases h
  · exact .inl ⟨e, rfl⟩
  · exact .inr ⟨u, hr u rfl, rfl⟩

/-- The same for the commands whose one check yields the value `x` that their writes `f` use. -/
theorem State.finish_map_writes {α : Type} {i : Instr} {r : Except Error α} {f : α → State}
    (h : s.finish (r.map f) = .next t) (hf : ∀ x, r = .ok x → Writes s i (f x)) :
    (∃ e, t = s.raise e) ∨ ∃ u, Writes s i u ∧ t = u.complete := by
  refine State.finish_writes h fun u hu => ?_
  obtain ⟨x, hx, rfl⟩ := except_map_eq_ok_iff.1 hu
  exact hf x hx

/-- The four commands that step a register: an idle block and a register that holds a value. -/
theorem State.finish_ownReg_writes {i : Instr} {sel : Reg} {f : BitVec sel.width → State}
    (h : s.finish ((s.ownReg sel).map f) = .next t)
    (hf : ∀ {x}, s.active = false → s.getReg sel = some x → Writes s i (f x)) :
    (∃ e, t = s.raise e) ∨ ∃ u, Writes s i u ∧ t = u.complete := by
  refine State.finish_map_writes h fun x hx => ?_
  obtain ⟨ha, hg⟩ := State.ownReg_eq_ok_iff.1 hx
  exact hf ha hg

theorem execLfsrInit_writes {sel : Reg} {seed : Imm} (h : execLfsrInit sel seed s = .next t) :
    (∃ e, t = s.raise e) ∨ ∃ u, Writes s (.lfsrInit sel seed) u ∧ t = u.complete := by
  refine State.finish_writes h fun u hu => ?_
  split_ifs at hu with ha ht hs
  cases hu
  exact .lfsrInit (by simpa using ha) (by simpa using ht) (by simpa using hs)

theorem execBeginSession_writes {key : Imm} (h : execBeginSession key s = .next t) :
    (∃ e, t = s.raise e) ∨ ∃ u, Writes s (.beginSession key) u ∧ t = u.complete := by
  refine State.finish_writes h fun u hu => ?_
  split_ifs at hu with ha ht hs
  cases hu
  simp only [Bool.or_eq_true, Bool.not_eq_true', not_or, Bool.not_eq_false, beq_iff_eq] at ha ht hs
  exact .beginSession (by simpa using ha) ht.1 ht.2 hs.1 hs.2

/-- Everything a command can do: raise an error in the state before it, or write what `Writes` says and
complete (R13, R202). -/
theorem exec_writes {i : Instr} (h : exec i s = .next t) :
    (∃ e, t = s.raise e) ∨ ∃ u, Writes s i u ∧ t = u.complete := by
  cases i with
  | lfsrInit sel seed => exact execLfsrInit_writes h
  | lfsrStepFwd sel => exact State.finish_ownReg_writes h .lfsrStepFwd
  | lfsrStepBwd sel => exact State.finish_ownReg_writes h .lfsrStepBwd
  | lfsrNextByte sel => exact State.finish_ownReg_writes h .lfsrNextByte
  | lfsrPrevByte sel => exact State.finish_ownReg_writes h .lfsrPrevByte
  | lfsrRead sel => exact State.finish_map_writes h fun _ hx => .lfsrRead (State.readReg_eq_ok_iff.1 hx)
  | nonceWr idx val => cases h; exact .inr ⟨_, .nonceWr, rfl⟩
  | beginSession key => exact execBeginSession_writes h
  | endSession =>
    exact State.finish_map_writes h fun _ hx =>
      .endSession (State.active_of_tables (State.sessionTables_eq_ok_iff.1 hx))
  | encryptSym v => exact State.finish_map_writes h fun _ hx => .encryptSym hx
  | decryptSym c => exact State.finish_map_writes h fun _ hx => .decryptSym hx
  | update v => exact State.finish_map_writes h fun _ hx => .update hx
  | tblRdFwd idx =>
    exact State.finish_map_writes h fun _ hx => .tblRdFwd (State.sessionTables_eq_ok_iff.1 hx)
  | tblRdInv idx =>
    exact State.finish_map_writes h fun _ hx => .tblRdInv (State.sessionTables_eq_ok_iff.1 hx)

/-- Everything a command word can do. -/
theorem accept_command_writes {w : Cmd} (h : accept (.command w) s = .next t) :
    (∃ e, t = s.raise e) ∨ ∃ i u, decode w = .ok i ∧ Writes s i u ∧ t = u.complete := by
  rcases accept_command_cases h with he | ⟨i, u, hd, rfl, hx⟩
  · exact .inl he
  · rw [State.finish_ok] at hx
    exact (exec_writes hx).imp_right fun ⟨v, hv, ht⟩ => ⟨i, v, hd, hv, ht⟩

/-! ## Frames of the writes -/

/-- No command writes STICKY itself: its end does (R30). -/
theorem Writes.sticky {i : Instr} (h : Writes s i u) : u.sticky = s.sticky := by
  cases h <;> simp

/-- NONCE_WR alone writes NONCE (R27). -/
theorem Writes.nonce {i : Instr} (h : Writes s i u) (hi : ∀ idx val, i ≠ .nonceWr idx val) :
    u.nonce = s.nonce := by
  cases h
  case nonceWr idx val => exact absurd rfl (hi idx val)
  all_goals simp

/-- Only the commands that return a value write RES (R28). -/
theorem Writes.res {i : Instr} (h : Writes s i u) (hi : writesRes i = false) : u.res = s.res := by
  cases h
  case lfsrNextByte | lfsrRead | encryptSym | decryptSym | tblRdFwd | tblRdInv => cases hi
  all_goals simp

end Sys2Proof.Machine

/-! # State (10_state): steps that lose no nonzero value, and tables that stay inverse permutations -/

namespace Sys2Proof.Machine
variable {w : Nat}

/-! ## A step leads from no nonzero value to 0 (R113) -/

/-- With no bit set below the top one, the feedback is the top bit: its tap is in the set. -/
theorem feedback_eq_top {taps x : BitVec w} (ht : tapsWellFormed taps = true)
    (hx : ∀ k < w - 1, x.getLsbD k = false) : feedback taps x = x.getLsbD (w - 1) := by
  rw [tapsWellFormed_iff] at ht
  cases w with
  | zero => simp at ht
  | succ n =>
    have hlow : xorBelow (taps &&& x) n = xorBelow (0#(n + 1)) n :=
      xorBelow_congr fun k hk => by simp [hx k hk]
    simp only [Nat.add_sub_cancel] at ht ⊢
    simp [feedback, xorBelow, hlow, ht]

theorem fwdStep_ne_zero {taps x : BitVec w} (ht : tapsWellFormed taps = true) (hx : x ≠ 0) :
    fwdStep taps x ≠ 0 := by
  intro h0
  have hlow : ∀ k < w - 1, x.getLsbD k = false := fun k hk => by
    have := getLsbD_fwdStep taps x (k + 1)
    simpa [h0, show k + 1 < w by omega] using this
  have htop : 0 < w → x.getLsbD (w - 1) = false := fun hw => by
    have := getLsbD_fwdStep taps x 0
    simpa [h0, hw, feedback_eq_top ht hlow] using this
  refine hx (BitVec.eq_of_getLsbD_eq fun k hk => ?_)
  rcases Nat.lt_or_eq_of_le (Nat.le_sub_one_of_lt hk) with h | rfl
  · simp [hlow k h]
  · simp [htop (by omega)]

/-- A backward step loses no bit, whatever the taps. -/
theorem bwdStep_ne_zero {taps x : BitVec w} (hx : x ≠ 0) : bwdStep taps x ≠ 0 := by
  intro h0
  have hhigh : x >>> 1 = 0#w := BitVec.eq_of_getLsbD_eq fun k hk => by
    by_cases h : k = w - 1
    · simp [show w ≤ 1 + k by omega]
    · have := getLsbD_bwdStep taps x k
      simpa [h0, hk, h, Nat.add_comm] using this
  have hbit0 : 0 < w → x.getLsbD 0 = false := fun hw => by
    have := getLsbD_bwdStep taps x (w - 1)
    simpa [h0, hw, hhigh] using this
  refine hx (BitVec.eq_of_getLsbD_eq fun k hk => ?_)
  cases k with
  | zero => simp [hbit0 hk]
  | succ k =>
    have := congrArg (fun y : BitVec w => y.getLsbD k) hhigh
    simpa [Nat.add_comm] using this

theorem fwdSteps_ne_zero {taps x : BitVec w} (ht : tapsWellFormed taps = true) (hx : x ≠ 0) (k : Nat) :
    fwdSteps taps k x ≠ 0 := by
  induction k generalizing x with
  | zero => exact hx
  | succ k ih => exact ih (fwdStep_ne_zero ht hx)

theorem bwdSteps_ne_zero {taps x : BitVec w} (hx : x ≠ 0) (k : Nat) : bwdSteps taps k x ≠ 0 := by
  induction k generalizing x with
  | zero => exact hx
  | succ k ih => exact ih (bwdStep_ne_zero hx)

/-- A seed that passes LFSR_INIT's check fits the register, so it is no 0 there (R102). -/
theorem setWidth_seed_ne_zero {seed : Imm} (h : seedInvalid w seed = false) : seed.setWidth w ≠ 0 := by
  obtain ⟨hne, hle⟩ := seedInvalid_eq_false_iff.1 h
  intro h0
  have h1 : seed.toNat % 2 ^ w = 0 := by simpa using congrArg BitVec.toNat h0
  rw [Nat.mod_eq_of_lt (by have := Nat.two_pow_pos w; omega)] at h1
  exact hne (BitVec.eq_of_toNat_eq h1)

/-! ## Permutations of the bytes (R25, R137, R139, R140, R161) -/

theorem Memory.permutation_iff_bijective {m : Memory} :
    Memory.Permutation m ↔ Function.Bijective (Memory.read m) :=
  (Function.bijective_iff_existsUnique _).symm

/-- A swap of two entries reads the table through a transposition. -/
theorem Memory.read_swap_eq_comp (m : Memory) (i j : Byte) :
    Memory.read (Memory.swap m i j) = Memory.read m ∘ Equiv.swap j i := by
  funext b
  rw [Memory.read_swap, Function.comp_apply, Equiv.swap_apply_def]
  split_ifs <;> rfl

theorem Memory.permutation_swap {m : Memory} (h : Memory.Permutation m) (i j : Byte) :
    Memory.Permutation (Memory.swap m i j) := by
  rw [Memory.permutation_iff_bijective, Memory.read_swap_eq_comp]
  exact (Memory.permutation_iff_bijective.1 h).comp (Equiv.swap j i).bijective

theorem Memory.permutation_identity : Memory.Permutation Memory.identity :=
  Memory.permutation_iff_bijective.2 (funext Memory.read_identity ▸ Function.bijective_id)

theorem permutation_applySwaps {m : Memory} (h : Memory.Permutation m) (swaps : List (Byte × Byte)) :
    Memory.Permutation (applySwaps m swaps) := by
  induction swaps generalizing m with
  | nil => exact h
  | cons p swaps ih => exact ih (Memory.permutation_swap h _ _)

theorem permutation_shuffleFrom (c : Config) (n : Nat) {b : Build} (h : Memory.Permutation b.fwd) :
    Memory.Permutation (shuffleFrom c n b).fwd := by
  induction n generalizing b with
  | zero => exact h
  | succ n ih => exact ih (Memory.permutation_swap h _ _)

theorem permutation_foldl_defaultMixStep (c : Config) (nonce : Memory) (l : List Byte)
    {jb : Byte × Build} (h : Memory.Permutation jb.2.fwd) :
    Memory.Permutation (l.foldl (defaultMixStep c nonce) jb).2.fwd := by
  induction l generalizing jb with
  | nil => exact h
  | cons i l ih => exact ih (Memory.permutation_swap h _ _)

theorem permutation_foldl_platformMixStep (o17 o32 : List Byte) (nonce : Memory) (l : List Byte)
    {jf : Byte × Memory} (h : Memory.Permutation jf.2) :
    Memory.Permutation (l.foldl (platformMixStep o17 o32 nonce) jf).2 := by
  induction l generalizing jf with
  | nil => exact h
  | cons i l ih => exact ih (permutation_applySwaps h _)

/-- Whichever pass is configured, it permutes the table (R139 (b)). -/
theorem permutation_nonceMix (c : Config) (nonce : Memory) {b : Build} (h : Memory.Permutation b.fwd) :
    Memory.Permutation (nonceMix c nonce b).fwd := by
  unfold nonceMix
  split
  · exact permutation_foldl_defaultMixStep c nonce addresses h
  · exact permutation_foldl_platformMixStep _ _ nonce platformPositions h

/-! ## F and INV are exact inverses (R26, R141, R167) -/

theorem Tables.inverse_iff {t : Tables} :
    t.Inverse ↔ Function.LeftInverse (Memory.read t.inv) (Memory.read t.fwd) ∧
      Function.RightInverse (Memory.read t.inv) (Memory.read t.fwd) := Iff.rfl

/-- The rebuild writes `x` at `F[x]`, so INV undoes F; F reaches every byte, so it undoes INV too (R141). -/
theorem inverse_rebuildInv {fwd : Memory} (h : Memory.Permutation fwd) :
    Tables.Inverse ⟨fwd, rebuildInv fwd⟩ := by
  obtain ⟨hinj, hsurj⟩ := Memory.permutation_iff_bijective.1 h
  have hleft : Function.LeftInverse (Memory.read (rebuildInv fwd)) (Memory.read fwd) :=
    Memory.read_foldl_write_addresses hinj (fun x => x) []
  simp only [Tables.inverse_iff]
  exact ⟨hleft, hleft.rightInverse_of_surjective hsurj⟩

theorem Tables.read_update_fwd_eq_comp (t : Tables) (v i : Byte) :
    Memory.read (t.update v i).fwd = Memory.read t.fwd ∘ Equiv.swap v i := by
  funext b
  rw [Tables.read_update_fwd, Function.comp_apply, Equiv.swap_apply_def]
  split_ifs with h1 h2 <;> simp_all

/-- With F and INV inverse, `b` is the entry F[v] exactly when `v` is its place. -/
theorem Tables.read_update_inv_eq_comp {t : Tables} (h : t.Inverse) (v i : Byte) :
    Memory.read (t.update v i).inv = Equiv.swap v i ∘ Memory.read t.inv := by
  have hplace : ∀ b x, b = Memory.read t.fwd x ↔ Memory.read t.inv b = x := fun b x =>
    ⟨fun hb => hb ▸ h.1 x, fun hb => hb ▸ (h.2 b).symm⟩
  funext b
  simp only [Tables.read_update_inv, Function.comp_apply, Equiv.swap_apply_def, hplace]

/-- The update reads F through a transposition and INV through the same one: they stay inverse (R167). -/
theorem Tables.inverse_update {t : Tables} (h : t.Inverse) (v i : Byte) : (t.update v i).Inverse := by
  obtain ⟨hl, hr⟩ := Tables.inverse_iff.1 h
  have hswap : Function.Involutive (Equiv.swap v i) := Equiv.swap_apply_self v i
  rw [Tables.inverse_iff, Tables.read_update_fwd_eq_comp, Tables.read_update_inv_eq_comp h]
  exact ⟨hl.comp hswap.leftInverse, hr.comp hswap.rightInverse⟩

/-! ## A session as BEGIN_SESSION builds it (R135, R142) -/

theorem foldl_defaultMixStep_regs (c : Config) (nonce : Memory) (l : List Byte) (jb : Byte × Build) :
    (l.foldl (defaultMixStep c nonce) jb).2.regs = jb.2.regs.advance c l.length := by
  induction l generalizing jb with
  | nil => rfl
  | cons i l ih =>
    rw [List.foldl_cons, ih, defaultMixStep_regs, Regs.afterDraw_eq_advance, Regs.advance_add,
      List.length_cons, Nat.add_comm]

theorem length_addresses : addresses.length = 256 := by
  simp [addresses]

/-- Either pass draws NONCE_DRAWS times from both registers (R139 (c), R140). -/
theorem nonceMix_regs (c : Config) (nonce : Memory) (b : Build) :
    (nonceMix c nonce b).regs = b.regs.advance c (nonceDraws c.nonceMix) := by
  unfold nonceMix
  split
  · next h => rw [h, defaultMix, foldl_defaultMixStep_regs, length_addresses]; rfl
  · next h => rw [h]; rfl

/-- A session's registers are its seeds after INIT_DRAWS draws (R10, R142). -/
theorem buildSession_regs (c : Config) (nonce : Memory) (key : Imm) :
    (buildSession c nonce key).regs = (sessionSeeds c key).advance c (initDraws c) := by
  simp only [buildSession]
  generalize Memory.identity = m
  rw [nonceMix_regs, shuffleFrom_regs, Regs.advance_add, initDraws]

theorem permutation_buildSession (c : Config) (nonce : Memory) (key : Imm) :
    Memory.Permutation (buildSession c nonce key).tables.fwd := by
  have h := Memory.permutation_identity
  simp only [buildSession]
  generalize Memory.identity = m at h
  exact permutation_nonceMix c nonce (permutation_shuffleFrom c 255 (b := ⟨sessionSeeds c key, m⟩) h)

theorem inverse_buildSession (c : Config) (nonce : Memory) (key : Imm) :
    (buildSession c nonce key).tables.Inverse :=
  inverse_rebuildInv (permutation_buildSession c nonce key)

/-- The seeds of a session that BEGIN_SESSION accepts stay nonzero through its draws (R113, R135). -/
theorem buildSession_regs_ne_zero {c : Config} {key : Imm} (nonce : Memory)
    (ht17 : tapsWellFormed c.taps17 = true) (ht32 : tapsWellFormed c.taps32 = true)
    (h17 : seed17 key ≠ 0) (h32 : seed32 c key ≠ 0) :
    (buildSession c nonce key).regs.r17 ≠ 0 ∧ (buildSession c nonce key).regs.r32 ≠ 0 := by
  rw [buildSession_regs]
  exact ⟨fwdSteps_ne_zero ht17 h17 _, fwdSteps_ne_zero ht32 h32 _⟩

end Sys2Proof.Machine

/-! # State (10_state): the invariant of the block, kept by every step -/

namespace Sys2Proof.Machine

variable {s t u : State}

/-! ## The invariant of the block, one write at a time (R25, R26, R30, R101, R160, R204) -/

/-- The invariant speaks of the configuration, the registers, the tables, NONCE, ERR and STICKY alone. -/
theorem State.Inv.congr (h : s.Inv) (hcfg : t.cfg = s.cfg) (hreg : ∀ q, t.getReg q = s.getReg q)
    (htables : t.tables = s.tables) (hnonce : t.nonce = s.nonce)
    (hsticky : t.err ≠ none → t.sticky = true) : t.Inv where
  reg q x hx := by
    rw [hreg] at hx
    rw [hcfg]
    exact h.reg q x hx
  valid ha := by
    have h17 : t.r17 = s.r17 := hreg .r17
    have h32 : t.r32 = s.r32 := hreg .r32
    simp only [State.active, State.v17, State.v32, htables, h17, h32] at ha ⊢
    exact h.valid ha
  inverse tb htb := h.inverse tb (htables ▸ htb)
  arrays := by
    rw [hnonce, htables]
    exact h.arrays
  sticky := hsticky

theorem State.Inv.raise (h : s.Inv) (e : Error) : (s.raise e).Inv :=
  h.congr rfl (s.raise_getReg e) rfl rfl fun _ => rfl

theorem State.Inv.complete (h : s.Inv) : s.complete.Inv :=
  h.congr rfl s.complete_getReg rfl rfl fun he => absurd rfl he

theorem State.Inv.setRes (h : s.Inv) {n : Nat} (v : BitVec n) : (s.setRes v).Inv :=
  h.congr rfl (s.setRes_getReg v) rfl rfl h.sticky

theorem State.Inv.withPort (h : s.Inv) (rest : List HostInput) : State.Inv { s with port := rest } :=
  h.congr rfl (fun q => by cases q <;> rfl) rfl rfl h.sticky

theorem State.Inv.writeNonce (h : s.Inv) (idx val : Byte) :
    State.Inv { s with nonce := Memory.write s.nonce idx val } where
  reg q x hx := h.reg q x (by cases q <;> exact hx)
  valid := h.valid
  inverse := h.inverse
  arrays := ⟨Memory.wf_write h.arrays.1 idx val, h.arrays.2⟩
  sticky := h.sticky

/-- Outside a session a register may be given any nonzero value, if its taps are well formed. -/
theorem State.Inv.setReg (h : s.Inv) (ha : s.active = false) {sel : Reg} {v : BitVec sel.width}
    (ht : tapsWellFormed (selTaps s.cfg sel) = true) (hv : v ≠ 0) : (s.setReg sel v).Inv where
  reg q x hx := by
    rw [State.setReg_cfg]
    by_cases hq : q = sel
    · subst hq
      rw [State.getReg_setReg_self] at hx
      exact ⟨Option.some.inj hx ▸ hv, ht⟩
    · rw [State.getReg_setReg_of_ne s hq] at hx
      exact h.reg q x hx
  valid hact := by simp [ha] at hact
  inverse tb htb := h.inverse tb (by simpa using htb)
  arrays := by simpa using h.arrays
  sticky := by simpa using h.sticky

/-- A step of a register that holds a value, by any function that leads from no nonzero value to 0 when
the taps are well formed. -/
theorem State.Inv.stepReg (h : s.Inv) (ha : s.active = false) {sel : Reg} {x : BitVec sel.width}
    (hx : s.getReg sel = some x) {f : BitVec sel.width → BitVec sel.width}
    (hf : tapsWellFormed (selTaps s.cfg sel) = true → x ≠ 0 → f x ≠ 0) : (s.setReg sel (f x)).Inv :=
  have ⟨hne, ht⟩ := h.reg sel x hx
  h.setReg ha ht (hf ht hne)

/-- A session's registers and tables may be written whole, if they are as a session's have to be. -/
theorem State.Inv.putSession (h : s.Inv) {x : Session}
    (h17 : x.regs.r17 ≠ 0 ∧ tapsWellFormed s.cfg.taps17 = true)
    (h32 : x.regs.r32 ≠ 0 ∧ tapsWellFormed s.cfg.taps32 = true) (hinv : x.tables.Inverse)
    (hwf : Memory.wf x.tables.fwd ∧ Memory.wf x.tables.inv) : (s.putSession x).Inv where
  reg q y hy := by
    cases q with
    | r17 => cases hy; exact h17
    | r32 => cases hy; exact h32
  valid _ := ⟨rfl, rfl⟩
  inverse tb htb := by cases htb; exact hinv
  arrays := ⟨h.arrays.1, fun tb htb => by cases htb; exact hwf⟩
  sticky := h.sticky

/-- A session built by BEGIN_SESSION's checks (R135). -/
theorem State.Inv.beginSession (h : s.Inv) {key : Imm} (ht17 : tapsWellFormed s.cfg.taps17 = true)
    (ht32 : tapsWellFormed s.cfg.taps32 = true) (h17 : seed17 key ≠ 0) (h32 : seed32 s.cfg key ≠ 0) :
    (s.putSession (buildSession s.cfg s.nonce key)).Inv :=
  have ⟨hr17, hr32⟩ := buildSession_regs_ne_zero s.nonce ht17 ht32 h17 h32
  h.putSession ⟨hr17, ht17⟩ ⟨hr32, ht32⟩ (inverse_buildSession s.cfg s.nonce key)
    (wf_buildSession s.cfg s.nonce key)

/-- The update of a session, shared by the three symbol commands (R161, R167). -/
theorem State.Inv.updateSession (h : s.Inv) {x : Session} (hx : s.session = .ok x) (v : Byte) :
    (s.putSession (x.update s.cfg v)).Inv := by
  obtain ⟨htb, h17, h32⟩ := State.session_eq_ok_iff.1 hx
  obtain ⟨hne17, ht17⟩ := h.reg .r17 _ h17
  obtain ⟨hne32, ht32⟩ := h.reg .r32 _ h32
  obtain ⟨hfwd, hinv⟩ := h.arrays.2 _ htb
  exact h.putSession ⟨fwdSteps_ne_zero ht17 hne17 8, ht17⟩ ⟨fwdSteps_ne_zero ht32 hne32 8, ht32⟩
    (Tables.inverse_update (h.inverse _ htb) v _) (Tables.wf_update hfwd hinv v _)

/-- With no register valid and no session, the clauses on both hold of nothing (R143). -/
theorem State.Inv.endSession (h : s.Inv) :
    State.Inv { s with tables := none, r17 := none, r32 := none } where
  reg q x hx := by cases q <;> cases hx
  valid ha := by cases ha
  inverse tb htb := by cases htb
  arrays := ⟨h.arrays.1, fun tb htb => by cases htb⟩
  sticky := h.sticky

theorem State.inv_hardReset (s : State) : s.hardReset.Inv where
  reg q x hx := by cases q <;> cases hx
  valid ha := by cases ha
  inverse tb htb := by cases htb
  arrays := ⟨Memory.wf_nil, fun tb htb => by cases htb⟩
  sticky he := absurd rfl he

/-! ## Every step keeps it -/

/-- What each command writes, once its checks have passed, keeps the invariant. -/
theorem Writes.inv {i : Instr} (hw : Writes s i u) (h : s.Inv) : u.Inv := by
  cases hw with
  | lfsrInit ha ht hs => exact h.setReg ha ht (setWidth_seed_ne_zero hs)
  | lfsrStepFwd ha hx => exact h.stepReg ha hx fwdStep_ne_zero
  | lfsrStepBwd ha hx => exact h.stepReg ha hx fun _ => bwdStep_ne_zero
  | lfsrNextByte ha hx => exact (h.stepReg ha hx fun ht hne => fwdSteps_ne_zero ht hne 8).setRes _
  | lfsrPrevByte ha hx => exact h.stepReg ha hx fun _ hne => bwdSteps_ne_zero hne 8
  | lfsrRead => exact h.setRes _
  | nonceWr => exact h.writeNonce _ _
  | beginSession _ ht17 ht32 h17 h32 => exact h.beginSession ht17 ht32 h17 h32
  | endSession => exact h.endSession
  | encryptSym hx => exact (h.updateSession hx _).setRes _
  | decryptSym hx => exact (h.updateSession hx _).setRes _
  | update hx => exact h.updateSession hx _
  | tblRdFwd => exact h.setRes _
  | tblRdInv => exact h.setRes _

theorem accept_inv {i : HostInput} (h : s.Inv) (ha : accept i s = .next t) : t.Inv := by
  cases i with
  | command w =>
    rcases accept_command_writes ha with ⟨e, rfl⟩ | ⟨c, u, -, hw, rfl⟩
    · exact h.raise e
    · exact (hw.inv h).complete
  | read r => cases ha; exact h
  | reset => cases ha; exact s.inv_hardReset

/-- Settles O17: a step waits, or accepts one input, and every input keeps the invariant. -/
theorem stepKeepsTheBlockConsistent : Obligations.StepKeepsTheBlockConsistent := by
  intro s t h hs
  rcases step_cases hs with ⟨-, rfl⟩ | ⟨i, rest, -, ha⟩
  · exact h
  · exact accept_inv (h.withPort rest) ha

/-- Settles O18: the state right after reset is its own hard reset. -/
theorem resetStateIsConsistent : Obligations.ResetStateIsConsistent :=
  State.inv_hardReset State.reset

end Sys2Proof.Machine

/-! # State (10_state): STATUS, NONCE, RES, and the state right after reset -/

namespace Sys2Proof.Machine

variable {s t : State}

/-! ## The error report: ERR and STICKY (R29, R30) -/

theorem failed_raise (e : Error) (s : State) : Failed e s (s.raise e) :=
  ⟨rfl, rfl, by constructor <;> simp⟩

theorem accept_command_err_sticky {w : Cmd} (h : accept (.command w) s = .next t) :
    (t.err = none ∧ t.sticky = s.sticky) ∨ ∃ e, t.err = some e ∧ t.sticky = true := by
  rcases accept_command_writes h with ⟨e, rfl⟩ | ⟨i, u, -, hw, rfl⟩
  · exact .inr ⟨e, rfl, rfl⟩
  · exact .inl ⟨rfl, hw.sticky⟩

/-- Whatever the host does short of reset, a recorded error stays recorded. -/
theorem accept_sticky {i : HostInput} (h : accept i s = .next t) (hi : i ≠ .reset)
    (hs : s.sticky = true) : t.sticky = true := by
  cases i with
  | command w =>
    rcases accept_command_err_sticky h with ⟨-, ht⟩ | ⟨e, -, ht⟩
    · exact ht.trans hs
    · exact ht
  | read r => cases h; exact hs
  | reset => exact absurd rfl hi

/-- Settles O20: a command word's end writes ERR and STICKY, and of the other inputs only reset touches
them. -/
theorem errAndStickyAreWrittenAsStated : Obligations.ErrAndStickyAreWrittenAsStated := by
  refine ⟨fun w s t h => accept_command_err_sticky h, fun s t hs hp h => ?_, fun s => ⟨s.hardReset, rfl, rfl⟩⟩
  rcases step_cases h with ⟨-, rfl⟩ | ⟨i, rest, hport, h⟩
  · exact hs
  · exact accept_sticky h (by simpa [hport] using hp) hs

/-- Four flags below two nibbles below the rest: where each part stands in the word. -/
theorem append_layout {n : Nat} (top : BitVec n) (e z : BitVec 4) (b3 b2 b1 b0 : Bool) :
    let x := top ++ e ++ z ++ BitVec.ofBool b3 ++ BitVec.ofBool b2 ++ BitVec.ofBool b1 ++ BitVec.ofBool b0
    x.getLsbD 0 = b0 ∧ x.getLsbD 1 = b1 ∧ x.getLsbD 2 = b2 ∧ x.getLsbD 3 = b3 ∧
      x.extractLsb' 4 4 = z ∧ x.extractLsb' 8 4 = e ∧ x.extractLsb' 12 n = top := by
  refine ⟨?_, ?_, ?_, ?_, ?_, ?_, ?_⟩
  iterate 4 · simp [BitVec.getLsbD_append, -BitVec.getLsbD_eq_getElem]
  iterate 2 · simp [BitVec.extractLsb'_append_eq_of_le, BitVec.extractLsb'_append_eq_of_add_le]
  · simp [BitVec.extractLsb'_append_eq_of_le]

/-- Settles O14: STATUS is such a word, its reserved bits 0. -/
theorem statusLayout : Obligations.StatusLayout :=
  fun s => append_layout (0 : BitVec 20) s.errCode 0 s.sticky s.v32 s.v17 s.active

/-! ## What leaves NONCE and RES alone (R27, R28) -/

theorem accept_nonce {i : HostInput} (h : accept i s = .next t) (hr : i ≠ .reset)
    (hw : ∀ w idx val, i = .command w → decode w ≠ .ok (.nonceWr idx val)) : t.nonce = s.nonce := by
  cases i with
  | command w =>
    rcases accept_command_writes h with ⟨e, rfl⟩ | ⟨c, u, hd, hc, rfl⟩
    · rfl
    · refine hc.nonce fun idx val hi => ?_
      subst hi
      exact hw w idx val rfl hd
  | read r => cases h; rfl
  | reset => exact absurd rfl hr

theorem State.memRead_nonces (s : State) (a : Byte) :
    s.memRead .nonces a = some (Memory.read s.nonce a) := rfl

/-- Settles O24: a step that waits changes nothing, and of the inputs only a NONCE_WR word and reset write
NONCE. -/
theorem nonceIsWrittenOnlyByNonceWrAndReset : Obligations.NonceIsWrittenOnlyByNonceWrAndReset := by
  intro s t h hr hw a
  rcases step_cases h with ⟨-, rfl⟩ | ⟨i, rest, hport, h⟩
  · rfl
  · simp only [hport, List.head?_cons, ne_eq, Option.some.injEq] at hr hw
    rw [State.memRead_nonces, State.memRead_nonces, accept_nonce h hr fun w idx val hi => hw w idx val hi]

/-- Settles O25: an error leaves the state before the command, and `Writes.res` says which commands that
succeed write RES. -/
theorem resIsWrittenOnlyByItsCommands : Obligations.ResIsWrittenOnlyByItsCommands := by
  intro i s t h hi
  rcases exec_writes h with ⟨e, rfl⟩ | ⟨u, hu, rfl⟩
  · rfl
  · exact hu.res (hi.resolve_right fun he => he rfl)

/-! ## Host reads, and the state right after reset (R28, R29, R34, R48) -/

/-- Settles O11: a read is accepted as no change, and with no input the step waits. -/
theorem hostReadsAndWaitingChangeNothing : Obligations.HostReadsAndWaitingChangeNothing := by
  refine ⟨fun s r rest hp => ?_, fun s hp => ?_, fun s => ⟨rfl, rfl⟩⟩
  · rw [step_of_port_cons hp]; rfl
  · simp [step, State.takeInput, hp]

theorem exec_lfsrRead_of_none {sel : Reg} (h : s.getReg sel = none) :
    exec (.lfsrRead sel) s = .next (s.raise .regNotInit) := by
  simp [exec, execLfsrRead, State.readReg_of_none h]

theorem exec_tblRdFwd_of_none {idx : Byte} (h : s.tables = none) :
    exec (.tblRdFwd idx) s = .next (s.raise .sessionNotActive) := by
  simp [exec, execTblRdFwd, State.sessionTables_of_none h]

theorem exec_tblRdInv_of_none {idx : Byte} (h : s.tables = none) :
    exec (.tblRdInv idx) s = .next (s.raise .sessionNotActive) := by
  simp [exec, execTblRdInv, State.sessionTables_of_none h]

theorem State.reset_getReg (sel : Reg) : State.reset.getReg sel = none := by
  cases sel <;> rfl

/-- Settles O13: no register and no table holds a value, so each read of one raises its error. -/
theorem resetStateIsAsStated : Obligations.ResetStateIsAsStated :=
  ⟨State.reset_getReg, rfl, rfl, rfl, rfl, by decide, fun _ => ⟨rfl, rfl, rfl⟩,
    fun sel => ⟨_, exec_lfsrRead_of_none (State.reset_getReg sel), failed_raise _ _⟩,
    fun _ => ⟨_, _, exec_tblRdFwd_of_none rfl, failed_raise _ _, exec_tblRdInv_of_none rfl, failed_raise _ _⟩⟩

end Sys2Proof.Machine

/-! # Memory (20_memory): command words as bytes (R45, R46) -/

namespace Sys2Proof

/-- The bytes of a word one by one, byte 0 being bits 63:56 (R45). -/
theorem Cmd.toBytes_eq (w : Cmd) :
    w.toBytes = [w.extractLsb' 56 8, w.extractLsb' 48 8, w.extractLsb' 40 8, w.extractLsb' 32 8,
      w.extractLsb' 24 8, w.extractLsb' 16 8, w.extractLsb' 8 8, w.extractLsb' 0 8] := rfl

theorem Cmd.getElem?_toBytes (w : Cmd) {k : Nat} (hk : k < 8) :
    w.toBytes[k]? = some (w.extractLsb' (8 * (7 - k)) 8) := by
  simp [Cmd.toBytes, hk, show 56 - 8 * k = 8 * (7 - k) by omega]

/-- Adjacent bytes join into one range of bits, from the most significant end down to the whole word. -/
theorem Cmd.ofBytes_extractLsb' (w : Cmd) :
    Cmd.ofBytes (w.extractLsb' 56 8) (w.extractLsb' 48 8) (w.extractLsb' 40 8) (w.extractLsb' 32 8)
      (w.extractLsb' 24 8) (w.extractLsb' 16 8) (w.extractLsb' 8 8) (w.extractLsb' 0 8) = w := by
  simp only [Cmd.ofBytes, BitVec.extractLsb'_append_extractLsb'_eq_extractLsb']
  exact BitVec.extractLsb'_eq_self

theorem decodeBytes_cons8 (b0 b1 b2 b3 b4 b5 b6 b7 : Byte) (rest : List Byte) :
    decodeBytes (b0 :: b1 :: b2 :: b3 :: b4 :: b5 :: b6 :: b7 :: rest) =
      (decode (Cmd.ofBytes b0 b1 b2 b3 b4 b5 b6 b7)).map fun i => (i, rest) := by
  rw [decodeBytes]
  cases decode (Cmd.ofBytes b0 b1 b2 b3 b4 b5 b6 b7) <;> rfl

theorem decodeBytes_toBytes_append (w : Cmd) (rest : List Byte) :
    decodeBytes (w.toBytes ++ rest) = (decode w).map fun i => (i, rest) := by
  simp only [Cmd.toBytes_eq, List.cons_append, List.nil_append, decodeBytes_cons8, Cmd.ofBytes_extractLsb']

/-- A partial word is no command: only a list of eight bytes or more reaches the decoder (R46). -/
theorem decodeBytes_of_length_lt {bytes : List Byte} (h : bytes.length < 8) :
    decodeBytes bytes = .error .partialWord := by
  unfold decodeBytes
  split
  · simp only [List.length_cons] at h
    omega
  · rfl

/-- Settles O6: a word's bytes decode as the word, each is the range of bits at its place, and a shorter list
of bytes holds no word. -/
theorem commandBytesAreMostSignificantFirst : Obligations.CommandBytesAreMostSignificantFirst :=
  ⟨fun w rest => ⟨decodeBytes_toBytes_append w rest, fun _ => w.getElem?_toBytes⟩,
    fun _ => decodeBytes_of_length_lt⟩

end Sys2Proof

/-! # Encoding (30_encoding): one word per command, one command per word -/

namespace Sys2Proof

open Sys2Proof.Machine

/-! ## A command's word decodes to the command (R66, R69) -/

/-- A command whose word selects the row at place `k` of R66's map, and is rebuilt by that row. -/
theorem decode_encode_of_row {i : Instr} (k : Nat) {r : OpRow} (hr : opcodeMap[k]? = some r)
    (hs : encode i &&& r.mask = r.value) (hb : r.build (encode i) = i) : decode (encode i) = .ok i := by
  rw [decode_of_selects (List.mem_of_getElem? hr) (beq_iff_eq.2 hs), hb]

theorem decode_encode (i : Instr) : decode (encode i) = .ok i := by
  cases i with
  | lfsrInit sel seed => exact decode_encode_of_row 0 rfl (Laws.OpcodeRow.lfsrInit sel seed) (by simp [encode])
  | lfsrStepFwd sel => exact decode_encode_of_row 1 rfl (Laws.OpcodeRow.lfsrStepFwd sel) (by simp [encode])
  | lfsrStepBwd sel => exact decode_encode_of_row 2 rfl (Laws.OpcodeRow.lfsrStepBwd sel) (by simp [encode])
  | lfsrNextByte sel => exact decode_encode_of_row 3 rfl (Laws.OpcodeRow.lfsrNextByte sel) (by simp [encode])
  | lfsrPrevByte sel => exact decode_encode_of_row 4 rfl (Laws.OpcodeRow.lfsrPrevByte sel) (by simp [encode])
  | lfsrRead sel => exact decode_encode_of_row 5 rfl (Laws.OpcodeRow.lfsrRead sel) (by simp [encode])
  | nonceWr idx val => exact decode_encode_of_row 6 rfl (Laws.OpcodeRow.nonceWr idx val) (by simp [encode])
  | beginSession key => exact decode_encode_of_row 7 rfl (Laws.OpcodeRow.beginSession key) (by simp [encode])
  | endSession => exact decode_encode_of_row 8 rfl Laws.OpcodeRow.endSession rfl
  | encryptSym v => exact decode_encode_of_row 9 rfl (Laws.OpcodeRow.encryptSym v) (by simp [encode])
  | decryptSym c => exact decode_encode_of_row 10 rfl (Laws.OpcodeRow.decryptSym c) (by simp [encode])
  | update v => exact decode_encode_of_row 11 rfl (Laws.OpcodeRow.update v) (by simp [encode])
  | tblRdFwd idx => exact decode_encode_of_row 12 rfl (Laws.OpcodeRow.tblRdFwd idx) (by simp [encode])
  | tblRdInv idx => exact decode_encode_of_row 13 rfl (Laws.OpcodeRow.tblRdInv idx) (by simp [encode])

/-- Settles O1: each command's word selects its row of R66, whose fields are the operands packed. -/
theorem decodeEncodeRoundTrip : Obligations.DecodeEncodeRoundTrip :=
  fun i _ => decode_encode i

/-! ## A word that decodes is its command's word (R67, R69) -/

/-- A field that the mask covers whole is the row's own. -/
theorem field_eq_of_and {n : Nat} {x m v : BitVec n} (h : x &&& m = v) (hm : m = BitVec.allOnes n) :
    v = x := by rw [← h, hm, BitVec.and_allOnes]

/-- Below the seven reserved bits of `A` in the LFSR family there is SEL alone (R66). -/
theorem Cmd.field_sel {w : Cmd} (h : w.a &&& 0xFE = 0) : w.sel.field = w.a := by
  have hsel : w.sel = if w.a.getLsbD 0 then .r32 else .r17 := by
    simp [Cmd.sel, Cmd.a]
  rw [hsel]
  generalize w.a = a at h
  revert a
  decide

/-- A packed word is `w` when, under a mask and a match that `w` meets, each of its fields is. -/
theorem Cmd.pack_eq_of_selects {r : OpRow} {w : Cmd} (h : r.selects w = true) {o a b : Byte} {i : Imm}
    (ho : w.opc &&& r.mask.opc = r.value.opc → o = w.opc) (ha : w.a &&& r.mask.a = r.value.a → a = w.a)
    (hb : w.b &&& r.mask.b = r.value.b → b = w.b)
    (hi : w.imm &&& r.mask.imm = r.value.imm → i = w.imm) : Cmd.pack o a b i = w := by
  obtain ⟨h1, h2, h3, h4⟩ := (OpRow.selects_iff r w).1 h
  rw [ho h1, ha h2, hb h3, hi h4, Cmd.pack_fields]

theorem encode_build_of_selects : ∀ r ∈ opcodeMap, ∀ w, r.selects w = true → encode (r.build w) = w := by
  simp only [opcodeMap, lfsrRows, sessionRows, symbolRows, List.cons_append, List.nil_append,
    List.forall_mem_cons]
  refine ⟨?lfsrInit, ?lfsrStepFwd, ?lfsrStepBwd, ?lfsrNextByte, ?lfsrPrevByte, ?lfsrRead, ?nonceWr,
    ?beginSession, ?endSession, ?encryptSym, ?decryptSym, ?update, ?tblRdFwd, ?tblRdInv, List.forall_mem_nil _⟩
  case lfsrInit =>
    exact fun w h => Cmd.pack_eq_of_selects h (field_eq_of_and · (by decide)) Cmd.field_sel
      (field_eq_of_and · (by decide)) fun _ => rfl
  case lfsrStepFwd | lfsrStepBwd | lfsrNextByte | lfsrPrevByte | lfsrRead =>
    exact fun w h => Cmd.pack_eq_of_selects h (field_eq_of_and · (by decide)) Cmd.field_sel
      (field_eq_of_and · (by decide)) (field_eq_of_and · (by decide))
  case nonceWr =>
    exact fun w h => Cmd.pack_eq_of_selects h (field_eq_of_and · (by decide)) (fun _ => rfl)
      (fun _ => rfl) (field_eq_of_and · (by decide))
  case beginSession =>
    exact fun w h => Cmd.pack_eq_of_selects h (field_eq_of_and · (by decide)) (field_eq_of_and · (by decide))
      (field_eq_of_and · (by decide)) fun _ => rfl
  case endSession =>
    exact fun w h => Cmd.pack_eq_of_selects h (field_eq_of_and · (by decide)) (field_eq_of_and · (by decide))
      (field_eq_of_and · (by decide)) (field_eq_of_and · (by decide))
  case encryptSym | decryptSym | update | tblRdFwd | tblRdInv =>
    exact fun w h => Cmd.pack_eq_of_selects h (field_eq_of_and · (by decide)) (fun _ => rfl)
      (field_eq_of_and · (by decide)) (field_eq_of_and · (by decide))

/-- Settles O2: the row a word selects fixes every bit that is no operand, and the operands are kept. -/
theorem decodedWordIsTheCommandsWord : Obligations.DecodedWordIsTheCommandsWord := by
  intro w i h
  obtain ⟨r, hr, hs, rfl⟩ := decode_eq_ok_iff.1 h
  exact encode_build_of_selects r hr w hs

theorem decode_eq_ok_iff_encode_eq {w : Cmd} {i : Instr} : decode w = .ok i ↔ encode i = w :=
  ⟨decodedWordIsTheCommandsWord w i, fun h => h ▸ decode_encode i⟩

/-- Settles O3: each sample is the word of its command. -/
theorem sampleWordsDecode : Obligations.SampleWordsDecode := by
  simp only [Obligations.SampleWordsDecode, decode_eq_ok_iff_encode_eq]
  decide

/-! ## A word that selects no row (R67, R68) -/

theorem accept_command_of_no_row {w : Cmd} (h : ∀ r ∈ opcodeMap, r.selects w ≠ true) (s : State) :
    accept (.command w) s = .next (s.raise .illegalCmd) := by
  cases hd : decode w with
  | ok i =>
    obtain ⟨r, hr, hs, -⟩ := decode_eq_ok_iff.1 hd
    exact absurd hs (h r hr)
  | error e => simp [accept, hd, execIllegal]

/-- A bit that the mask covers has the row's value in a word that selects the row. -/
theorem OpRow.getLsbD_of_selects {r : OpRow} {w : Cmd} (h : r.selects w = true) {k : Nat}
    (hm : r.mask.getLsbD k = true) : w.getLsbD k = r.value.getLsbD k := by
  rw [← beq_iff_eq.1 h, BitVec.getLsbD_and, hm, Bool.and_true]

/-- Settles O4: the opcode leaves no other row to select, and the bit forbids this one. -/
theorem reservedBitsRaiseIllegalCmd : Obligations.ReservedBitsRaiseIllegalCmd := by
  intro r hr w s hopc ⟨k, hw, hm, hv⟩
  refine ⟨_, accept_command_of_no_row (fun q hq hs => ?_) s, failed_raise _ s⟩
  have hqr : q = r := List.inj_on_of_nodup_map opcodeMap_opc_nodup hq hr ((opc_of_selects hq hs).symm.trans hopc)
  subst hqr
  simp [OpRow.getLsbD_of_selects hs hm, hv] at hw

/-- The opcodes of R66's map, which leave the three ranges of R68 free. -/
theorem opcodeMap_opc_range : ∀ r ∈ opcodeMap,
    (0x10 ≤ r.value.opc.toNat ∧ r.value.opc.toNat ≤ 0x15) ∨
      (0x20 ≤ r.value.opc.toNat ∧ r.value.opc.toNat ≤ 0x27) := by
  simp only [opcodeMap, lfsrRows, sessionRows, symbolRows, List.cons_append, List.nil_append,
    List.forall_mem_cons]
  decide

/-- Settles O5: a word selects only rows with its own opcode, and no row has one of R68's. -/
theorem undefinedOpcodesRaiseIllegalCmd : Obligations.UndefinedOpcodesRaiseIllegalCmd := by
  intro w s hopc
  refine ⟨_, accept_command_of_no_row (fun r hr hs => ?_) s, failed_raise _ s⟩
  have hrange := opcodeMap_opc_range r hr
  rw [← opc_of_selects hr hs] at hrange
  omega

end Sys2Proof

/-! # Encoding (30_encoding): the assembler (R72, R73) -/

namespace Sys2Proof.Machine

/-! ## Operands -/

@[simp] theorem isSome_asmReg (arg : AsmArg) : (asmReg arg).isSome = arg.isReg := by
  cases arg <;> rfl

@[simp] theorem isSome_asmField (n : Nat) (arg : AsmArg) : (asmField n arg).isSome = arg.fits n := by
  cases arg with
  | word name => rfl
  | num k => by_cases h : k < 2 ^ n <;> simp [asmField, AsmArg.fits, h]

@[simp] theorem isSome_asmCount (arg : AsmArg) : (asmCount arg).isSome = arg.isNum := by
  cases arg <;> rfl

@[simp] theorem isSome_asmBytes (args : List AsmArg) :
    (asmBytes args).isSome = args.all (AsmArg.fits 8) := by
  induction args with
  | nil => rfl
  | cons arg args ih =>
    rw [asmBytes, List.all_cons, ← isSome_asmField, ← ih]
    cases asmField 8 arg <;> simp

/-! ## What an assembler issues -/

/-- Every command word among the inputs is the word of a command. -/
def CommandsOnly (inputs : List HostInput) : Prop := ∀ w, .command w ∈ inputs → ∃ i, encode i = w

theorem commandsOnly_issued (i : Instr) : CommandsOnly [issued i] := by
  intro w hw
  obtain rfl : w = encode i := by simpa [issued] using hw
  exact ⟨i, rfl⟩

theorem commandsOnly_replicate (n : Nat) (i : Instr) : CommandsOnly (List.replicate n (issued i)) := by
  intro w hw
  exact commandsOnly_issued i w (by simpa using List.eq_of_mem_replicate hw)

theorem commandsOnly_nonceLoad (bytes : List Byte) : CommandsOnly (nonceLoad bytes) := by
  intro w hw
  obtain ⟨k, hk, hkw⟩ := List.mem_mapIdx.1 hw
  exact commandsOnly_issued _ w (List.mem_singleton.2 hkw.symm)

theorem commandsOnly_symbolString (f : Byte → Instr) (symbols : List Byte) :
    CommandsOnly (symbolString f symbols) := by
  intro w hw
  obtain ⟨v, -, hv⟩ := List.mem_flatMap.1 hw
  exact commandsOnly_issued (f v) w (by simpa using hv)

/-- An assembler's answer to a line: given exactly when the line `fits`, with no word but commands'. -/
structure AssemblesWhen (fits : Bool) (answer : Option (List HostInput)) : Prop where
  isSome : answer.isSome = fits
  commands : ∀ inputs ∈ answer, CommandsOnly inputs

theorem AssemblesWhen.refused : AssemblesWhen false none := ⟨rfl, by simp⟩

theorem AssemblesWhen.given {inputs : List HostInput} (h : CommandsOnly inputs) :
    AssemblesWhen true (some inputs) := ⟨rfl, by simpa using h⟩

/-- The last operand of a line. -/
theorem AssemblesWhen.map {α : Type} {operand : Option α} {f : α → List HostInput}
    (hf : ∀ x, CommandsOnly (f x)) : AssemblesWhen operand.isSome (operand.map f) := by
  cases operand with
  | none => exact .refused
  | some x => exact .given (hf x)

/-- An operand with others after it. -/
theorem AssemblesWhen.bind {α : Type} {operand : Option α} {f : α → Option (List HostInput)} {fits : Bool}
    (hf : ∀ x, AssemblesWhen fits (f x)) : AssemblesWhen (operand.isSome && fits) (operand.bind f) := by
  cases operand with
  | none => exact .refused
  | some x => exact hf x

theorem assemblesWhen_asmByteCommand (f : Byte → Instr) (arg : AsmArg) :
    AssemblesWhen (arg.fits 8) (asmByteCommand f arg) := by
  rw [← isSome_asmField]
  exact .map fun v => commandsOnly_issued (f v)

theorem assemblesWhen_asmRegCommand (f : Reg → Instr) (arg : AsmArg) :
    AssemblesWhen arg.isReg (asmRegCommand f arg) := by
  rw [← isSome_asmReg]
  exact .map fun r => commandsOnly_issued (f r)

theorem assemblesWhen_asmRepeat (f : Reg → Instr) (reg count : AsmArg) :
    AssemblesWhen (reg.isReg && count.isNum) (asmRepeat f reg count) := by
  rw [← isSome_asmReg, ← isSome_asmCount]
  exact .bind fun r => .map fun n => commandsOnly_replicate n (f r)

theorem assemblesWhen_asmBytes {f : List Byte → List HostInput} (hf : ∀ bytes, CommandsOnly (f bytes))
    (args : List AsmArg) : AssemblesWhen (args.all (AsmArg.fits 8)) ((asmBytes args).map f) := by
  rw [← isSome_asmBytes]
  exact .map hf

theorem assemblesWhen_lfsrInit (r seed : AsmArg) :
    AssemblesWhen (r.isReg && seed.fits 40) (assemble ⟨.lfsrInit, [r, seed]⟩) := by
  rw [← isSome_asmReg, ← isSome_asmField]
  exact .bind fun _ => .map fun _ => commandsOnly_issued _

theorem assemblesWhen_nonceWr (idx val : AsmArg) :
    AssemblesWhen (idx.fits 8 && val.fits 8) (assemble ⟨.nonceWr, [idx, val]⟩) := by
  rw [← isSome_asmField, ← isSome_asmField]
  exact .bind fun _ => .map fun _ => commandsOnly_issued _

theorem assemblesWhen_sessBegin (key : AsmArg) : AssemblesWhen (key.fits 40) (assemble ⟨.sessBegin, [key]⟩) := by
  rw [← isSome_asmField]
  exact .map fun _ => commandsOnly_issued _

theorem assemblesWhen_nonceLoad (args : List AsmArg) :
    AssemblesWhen (args.length == 256 && args.all (AsmArg.fits 8)) (assemble ⟨.nonceLoad, args⟩) := by
  by_cases h : args.length = 256
  · simpa [assemble, h] using assemblesWhen_asmBytes commandsOnly_nonceLoad args
  · rw [beq_false_of_ne h, Bool.false_and]
    simpa [assemble, h] using AssemblesWhen.refused

/-- Every line: by its name, then by the count of its operands. -/
theorem assemblesWhen_wellFormed (l : AsmLine) : AssemblesWhen l.wellFormed (assemble l) := by
  obtain ⟨op, args⟩ := l
  cases op with
  | lfsrInit =>
    match args with
    | [r, seed] => exact assemblesWhen_lfsrInit r seed
    | [] | [_] | _ :: _ :: _ :: _ => exact .refused
  | lfsrFwd | lfsrBwd | lfsrNext | lfsrPrev | lfsrRead =>
    match args with
    | [r] => exact assemblesWhen_asmRegCommand _ r
    | [] | _ :: _ :: _ => exact .refused
  | nonceWr =>
    match args with
    | [idx, val] => exact assemblesWhen_nonceWr idx val
    | [] | [_] | _ :: _ :: _ :: _ => exact .refused
  | sessBegin =>
    match args with
    | [key] => exact assemblesWhen_sessBegin key
    | [] | _ :: _ :: _ => exact .refused
  | sessEnd =>
    match args with
    | [] => exact .given (commandsOnly_issued .endSession)
    | _ :: _ => exact .refused
  | enc | dec | upd | tblFwd | tblInv =>
    match args with
    | [v] => exact assemblesWhen_asmByteCommand _ v
    | [] | _ :: _ :: _ => exact .refused
  | lfsrFwdN | lfsrBwdN =>
    match args with
    | [r, n] => exact assemblesWhen_asmRepeat _ r n
    | [] | [_] | _ :: _ :: _ :: _ => exact .refused
  | nonceLoad => exact assemblesWhen_nonceLoad args
  | encStr | decStr =>
    match args with
    | [] => exact .refused
    | v :: vs => exact assemblesWhen_asmBytes (commandsOnly_symbolString _) (v :: vs)

/-- Settles O7: an operand has a value exactly when it fits, and a line needs each of its operands. -/
theorem assemblerTakesExactlyTheLinesThatFit : Obligations.AssemblerTakesExactlyTheLinesThatFit :=
  fun l => (assemblesWhen_wellFormed l).isSome

/-- Settles O8: an assembled word is a command's word, so it decodes to that command. -/
theorem assembledWordsAreCommands : Obligations.AssembledWordsAreCommands := by
  intro l inputs h w hw
  obtain ⟨i, rfl⟩ := (assemblesWhen_wellFormed l).commands inputs h w hw
  exact ⟨i, decode_encode i⟩

end Sys2Proof.Machine

/-! # LFSR (40_lfsr): the algebra of the two steps (R103, R104, R112 to R116, R118) -/

namespace Sys2Proof.Machine

variable {w : Nat}

/-! ## The feedback and the top tap (R103) -/

/-- The feedback is the top bit, if it is tapped, with the XOR of the taps below it. -/
theorem feedback_eq_xor_below {taps : BitVec w} (hw : 0 < w) (s : BitVec w) :
    feedback taps s =
      ((taps.getLsbD (w - 1) && s.getLsbD (w - 1)) ^^ xorBelow (taps &&& s) (w - 1)) := by
  obtain ⟨n, rfl⟩ := Nat.exists_eq_succ_of_ne_zero hw.ne'
  simp [feedback, xorBelow]

theorem tapsWellFormed_width_pos {taps : BitVec w} (ht : tapsWellFormed taps = true) : 0 < w := by
  have := BitVec.lt_of_getLsbD (tapsWellFormed_iff.1 ht)
  omega

theorem feedback_of_wellFormed {taps : BitVec w} (ht : tapsWellFormed taps = true) (s : BitVec w) :
    feedback taps s = (s.getLsbD (w - 1) ^^ xorBelow (taps &&& s) (w - 1)) := by
  rw [feedback_eq_xor_below (tapsWellFormed_width_pos ht), tapsWellFormed_iff.1 ht, Bool.true_and]

/-- Without the top tap the feedback does not see the top bit. -/
theorem feedback_of_top_untapped {taps : BitVec w} (hw : 0 < w) (ht : taps.getLsbD (w - 1) = false)
    (s : BitVec w) : feedback taps s = xorBelow (taps &&& s) (w - 1) := by
  rw [feedback_eq_xor_below hw, ht, Bool.false_and, Bool.false_xor]

@[simp] theorem feedback_zero_left (s : BitVec w) : feedback 0#w s = false := by
  simp [feedback]

@[simp] theorem feedback_zero_right (taps : BitVec w) : feedback taps 0#w = false := by
  simp [feedback]

/-! ## Inverse bijections (R112) -/

@[simp] theorem fwdStep_zero (taps : BitVec w) : fwdStep taps 0#w = 0#w := by
  simp [fwdStep]

@[simp] theorem bwdStep_zero (taps : BitVec w) : bwdStep taps 0#w = 0#w := by
  simp [bwdStep]

/-- The bits a backward step puts below the top one are those a forward step shifted up, so the XOR of the
taps below the top is the one the feedback was made with, and what is left of the feedback is the top bit. -/
theorem bwdStep_fwdStep {taps : BitVec w} (ht : tapsWellFormed taps = true) (s : BitVec w) :
    bwdStep taps (fwdStep taps s) = s := by
  have hlow : xorBelow (taps &&& fwdStep taps s >>> 1) (w - 1) = xorBelow (taps &&& s) (w - 1) :=
    xorBelow_congr fun k hk => by simp [getElem_fwdStep, show 1 + k < w by omega]
  refine BitVec.eq_of_getLsbD_eq fun k hk => ?_
  rw [getLsbD_bwdStep, decide_eq_true hk, Bool.true_and, hlow]
  split_ifs with hk'
  · simp [getElem_fwdStep, feedback_of_wellFormed ht, hk', tapsWellFormed_width_pos ht]
  · simp [getElem_fwdStep, show k + 1 < w by omega]

theorem fwdStep_leftInverse {taps : BitVec w} (ht : tapsWellFormed taps = true) :
    Function.LeftInverse (bwdStep taps) (fwdStep taps) := bwdStep_fwdStep ht

/-- There are finitely many states, so a forward step that can be undone reaches all of them. -/
theorem fwdStep_bijective {taps : BitVec w} (ht : tapsWellFormed taps = true) :
    Function.Bijective (fwdStep taps) :=
  Finite.injective_iff_bijective.1 (fwdStep_leftInverse ht).injective

theorem fwdStep_bwdStep {taps : BitVec w} (ht : tapsWellFormed taps = true) (s : BitVec w) :
    fwdStep taps (bwdStep taps s) = s :=
  (fwdStep_leftInverse ht).rightInverse_of_surjective (fwdStep_bijective ht).surjective s

/-- Settles O32: the backward step undoes the forward one bit by bit, and on finitely many states a left
inverse is an inverse. -/
theorem stepsAreInverse : Obligations.StepsAreInverse := fun _ taps ht =>
  ⟨fun s => ⟨bwdStep_fwdStep ht s, fwdStep_bwdStep ht s⟩, fwdStep_bijective ht, fwdStep_zero taps,
    bwdStep_zero taps⟩

/-! ## Nonzero states (R113) -/

/-- The top bit is shifted out, and comes back as the feedback. -/
theorem fwdStep_top_bit {taps : BitVec w} (ht : tapsWellFormed taps = true) :
    fwdStep taps (1#w <<< (w - 1)) = 1#w := by
  have hw := tapsWellFormed_width_pos ht
  rw [← BitVec.twoPow_eq]
  have hfb : feedback taps (BitVec.twoPow w (w - 1)) = true := by
    rw [feedback_eq_top ht fun k hk => by simp [BitVec.getLsbD_twoPow, show w - 1 ≠ k by omega]]
    simp [hw]
  refine BitVec.eq_of_getLsbD_eq fun k hk => ?_
  cases k with
  | zero => simp [getLsbD_fwdStep, hfb, hw]
  | succ k => simp [getLsbD_fwdStep, BitVec.getLsbD_twoPow, show w - 1 ≠ k by omega]

/-- Settles O33: neither step loses a nonzero state, and the top bit comes back at bit 0. -/
theorem stepsKeepTheStateNonzero : Obligations.StepsKeepTheStateNonzero := fun _ _ ht =>
  ⟨fun _ hs => ⟨fwdStep_ne_zero ht hs, bwdStep_ne_zero hs⟩, fwdStep_top_bit ht⟩

/-! ## A tap set without the top bit (R114) -/

/-- Then the successor depends on the bits below the top one only. -/
theorem fwdStep_congr_of_top_untapped {taps a b : BitVec w} (hw : 0 < w)
    (ht : taps.getLsbD (w - 1) = false) (hab : ∀ k < w - 1, a.getLsbD k = b.getLsbD k) :
    fwdStep taps a = fwdStep taps b := by
  refine BitVec.eq_of_getLsbD_eq fun k hk => ?_
  cases k with
  | zero =>
    have hfb : feedback taps a = feedback taps b := by
      rw [feedback_of_top_untapped hw ht, feedback_of_top_untapped hw ht]
      exact xorBelow_congr fun k hk => by simp [hab k hk]
    simp [getLsbD_fwdStep, hfb]
  | succ k => simp [getLsbD_fwdStep, hab k (by omega)]

theorem fwdStep_xor_top_bit {taps : BitVec w} (hw : 0 < w) (ht : taps.getLsbD (w - 1) = false)
    (s : BitVec w) : fwdStep taps (s ^^^ 1#w <<< (w - 1)) = fwdStep taps s :=
  fwdStep_congr_of_top_untapped hw ht fun k hk => by
    simp [← BitVec.twoPow_eq, BitVec.getLsbD_twoPow, show w - 1 ≠ k by omega]

theorem top_bit_ne_zero (hw : 0 < w) : 1#w <<< (w - 1) ≠ 0#w := fun h => by
  have := congrArg (BitVec.getLsbD · (w - 1)) h
  simp [← BitVec.twoPow_eq, hw] at this

/-- Settles O34: the top bit alone steps to 0, as 0 does. -/
theorem stepWithoutTheTopTapIsNotInvertible : Obligations.StepWithoutTheTopTapIsNotInvertible := by
  refine ⟨fun w taps s hw ht => ⟨fwdStep_xor_top_bit hw ht s, fun hinj => ?_⟩, fun _ => feedback_zero_left⟩
  refine top_bit_ne_zero hw (hinj ?_)
  simpa using fwdStep_xor_top_bit hw ht 0#w

/-! ## Linearity (R115) -/

/-- The XOR over the taps is linear. -/
theorem xorBelow_and_xor (taps a b : BitVec w) (n : Nat) :
    xorBelow (taps &&& (a ^^^ b)) n = (xorBelow (taps &&& a) n ^^ xorBelow (taps &&& b) n) := by
  have hmask : taps &&& (a ^^^ b) = (taps &&& a) ^^^ (taps &&& b) := by
    ext k
    simp [Bool.and_xor_distrib_left]
  rw [hmask, xorBelow_xor]

theorem feedback_xor (taps a b : BitVec w) :
    feedback taps (a ^^^ b) = (feedback taps a ^^ feedback taps b) := xorBelow_and_xor taps a b w

theorem fwdStep_xor (taps a b : BitVec w) :
    fwdStep taps (a ^^^ b) = fwdStep taps a ^^^ fwdStep taps b := by
  refine BitVec.eq_of_getLsbD_eq fun k hk => ?_
  cases k with
  | zero => simp [getElem_fwdStep, feedback_xor, hk]
  | succ k => simp [getElem_fwdStep, hk]

theorem bwdStep_xor (taps a b : BitVec w) :
    bwdStep taps (a ^^^ b) = bwdStep taps a ^^^ bwdStep taps b := by
  refine BitVec.eq_of_getLsbD_eq fun k hk => ?_
  rw [BitVec.getLsbD_xor, getLsbD_bwdStep, getLsbD_bwdStep, getLsbD_bwdStep]
  simp only [decide_eq_true hk, Bool.true_and]
  split_ifs
  · rw [BitVec.ushiftRight_xor_distrib, xorBelow_and_xor, BitVec.getLsbD_xor]
    simp only [Bool.xor_assoc, Bool.xor_left_comm (b.getLsbD 0)]
  · exact BitVec.getLsbD_xor

/-- Settles O35: the shifts are linear bit by bit, and so is the XOR over the taps. -/
theorem stepsAreLinear : Obligations.StepsAreLinear :=
  fun _ taps a b => ⟨fwdStep_xor taps a b, bwdStep_xor taps a b⟩

/-! ## The byte window (R116, R118) -/

/-- Forward steps shift the bits they do not push out at the top. -/
theorem getLsbD_fwdSteps_add (taps s : BitVec w) {n k : Nat} (h : k + n < w) :
    (fwdSteps taps n s).getLsbD (k + n) = s.getLsbD k := by
  induction n with
  | zero => rfl
  | succ n ih =>
    rw [fwdSteps_succ', getLsbD_fwdStep, decide_eq_true h, Bool.true_and, if_neg (by omega)]
    exact ih (by omega)

/-- The feedback bits of `n` steps stand in the low `n` bits, the first of them at the top of these. -/
theorem getLsbD_fwdSteps_feedback (taps s : BitVec w) {n j : Nat} (hj : j < n) (hn : n ≤ w) :
    (fwdSteps taps n s).getLsbD (n - 1 - j) = feedback taps (fwdSteps taps j s) := by
  obtain ⟨m, rfl⟩ := Nat.exists_eq_add_of_lt hj
  have hshift := getLsbD_fwdSteps_add taps (fwdSteps taps (j + 1) s) (n := m) (k := 0) (by omega)
  rw [← fwdSteps_add, fwdSteps_succ', getLsbD_fwdStep, decide_eq_true (by omega), Bool.true_and,
    if_pos rfl] at hshift
  rw [← hshift]
  congr 2 <;> omega

/-- Settles O36: a byte draw shifts by eight and fills the low byte with its feedback bits. -/
theorem byteWindowAfterADraw : Obligations.ByteWindowAfterADraw := fun _ taps s hw =>
  ⟨fun _ hk => getLsbD_fwdSteps_add taps s hk, fun _ hj => getLsbD_fwdSteps_feedback taps s hj hw⟩

/-- The low byte, while it has not been pushed out, stands `n` bits higher after `n` steps. -/
theorem lowByte_eq_extractLsb'_fwdSteps (taps s : BitVec w) {n : Nat} (h : n + 8 ≤ w) :
    lowByte s = (fwdSteps taps n s).extractLsb' n 8 := by
  refine BitVec.eq_of_getLsbD_eq fun k hk => ?_
  rw [BitVec.getLsbD_extractLsb', Nat.add_comm n k, getLsbD_fwdSteps_add taps s (by omega)]
  simp [lowByte]

/-- Settles O38: each draw leaves its byte eight bits higher, so the fourth finds the four bytes joined. -/
theorem fourDrawsSpellTheRegister : Obligations.FourDrawsSpellTheRegister := by
  intro taps s s1 s2 s3
  have h2 : s3 = fwdSteps taps 16 s1 := (fwdSteps_add taps s1 8 8).symm
  have h1 : s3 = fwdSteps taps 24 s := h2.trans (fwdSteps_add taps s 16 8).symm
  rw [lowByte_eq_extractLsb'_fwdSteps taps s (n := 24) (by omega), ← h1,
    lowByte_eq_extractLsb'_fwdSteps taps s1 (n := 16) (by omega), ← h2,
    lowByte_eq_extractLsb'_fwdSteps taps s2 (n := 8) (by omega), show fwdSteps taps 8 s2 = s3 from rfl,
    lowByte_eq_extractLsb'_fwdSteps taps s3 (n := 0) (by omega), fwdSteps_zero]
  simp only [BitVec.extractLsb'_append_extractLsb'_eq_extractLsb']
  exact BitVec.extractLsb'_eq_self.symm

/-! ## Steps that undo steps (R117, R119) -/

theorem bwdSteps_fwdSteps {taps : BitVec w} (ht : tapsWellFormed taps = true) (n : Nat) (s : BitVec w) :
    bwdSteps taps n (fwdSteps taps n s) = s := (fwdStep_leftInverse ht).iterate n s

theorem bwdSteps_fwdSteps_of_le {taps : BitVec w} (ht : tapsWellFormed taps = true) {k n : Nat}
    (h : k ≤ n) (s : BitVec w) : bwdSteps taps k (fwdSteps taps n s) = fwdSteps taps (n - k) s := by
  rw [← bwdSteps_fwdSteps ht k (fwdSteps taps (n - k) s), ← fwdSteps_add, Nat.add_sub_cancel' h]

theorem bwdSteps_fwdSteps_of_ge {taps : BitVec w} (ht : tapsWellFormed taps = true) {k n : Nat}
    (h : n ≤ k) (s : BitVec w) : bwdSteps taps k (fwdSteps taps n s) = bwdSteps taps (k - n) s := by
  rw [← Nat.sub_add_cancel h, bwdSteps_add, bwdSteps_fwdSteps ht, Nat.add_sub_cancel]

/-! ## The two steps in naturals (R103, R104) -/

/-- `XOR_{t in T}` over the positions below `n`, as the model computes it (R12). -/
theorem tapXor_range (taps s : BitVec w) (n : Nat) :
    tapXor taps s (List.range n) = xorBelow (taps &&& s) n := by
  induction n with
  | zero => rfl
  | succ n ih =>
    rw [tapXor] at ih
    rw [tapXor, List.range_succ, List.filter_append, List.foldl_append, ih, xorBelow, BitVec.getLsbD_and]
    cases htap : taps.getLsbD n <;> simp [htap, Bool.xor_comm]

theorem toNat_fwdStep (taps s : BitVec w) :
    (fwdStep taps s).toNat =
      (s.toNat <<< 1 ||| (tapXor taps s (List.range w)).toNat) &&& (2 ^ w - 1) := by
  rw [tapXor_range, Nat.and_two_pow_sub_one_eq_mod, Nat.or_mod_two_pow]
  simp [fwdStep, feedback]

theorem toNat_bwdStep (taps s : BitVec w) (hw : 0 < w) :
    (bwdStep taps s).toNat =
      (s.getLsbD 0 ^^ tapXor taps (s >>> 1) (List.range (w - 1))).toNat <<< (w - 1) |||
        s.toNat >>> 1 := by
  rw [tapXor_range]
  simp only [bwdStep, BitVec.toNat_or, BitVec.toNat_ushiftRight]
  congr 1
  cases s.getLsbD 0 ^^ xorBelow (taps &&& s >>> 1) (w - 1) with
  | false => simp
  | true => simp [Nat.one_shiftLeft, hw]

end Sys2Proof.Machine

/-! # LFSR (40_lfsr): the six commands (R102 to R111), and runs of byte draws and undos (R117, R119) -/

namespace Sys2Proof.Machine

variable {s t : State} {sel : Reg} {x : BitVec sel.width}

/-! ## Frames -/

theorem onlyReg_setReg (s : State) (sel : Reg) (v : BitVec sel.width) :
    OnlyReg sel s (s.setReg sel v).complete where
  cfg := by simp
  reg p hp := by rw [State.complete_getReg, State.getReg_setReg_of_ne s hp]
  active := by simp
  mem := by simp
  port := by simp
  ok := ⟨rfl, by simp⟩

/-- The frame says nothing of RES. -/
theorem OnlyReg.setRes (h : OnlyReg sel s t) {n : Nat} (v : BitVec n) : OnlyReg sel s (t.setRes v) where
  cfg := h.cfg
  reg p hp := by rw [State.setRes_getReg, h.reg p hp]
  active := h.active
  mem sp a := by rw [State.setRes_memRead, h.mem]
  port := h.port
  ok := h.ok

theorem onlyRes_setRes (s : State) {n : Nat} (v : BitVec n) : OnlyRes s (s.setRes v).complete := by
  constructor <;> simp [Succeeded]

/-! ## The commands that step a register -/

/-- The checks pass in an idle block on a valid register, and the command's writes stand (R100 (a), (b)). -/
theorem State.finish_ownReg (ha : s.active = false) (hx : s.getReg sel = some x)
    (f : BitVec sel.width → State) : s.finish ((s.ownReg sel).map f) = .next (f x).complete := by
  rw [State.ownReg_of_idle ha, State.readReg_of_some hx, except_map_ok, State.finish_ok]

/-- A command that steps the register by `f` and returns nothing: any of the four but LFSR_NEXT_BYTE. -/
theorem State.finish_stepReg (ha : s.active = false) (hx : s.getReg sel = some x)
    (f : BitVec sel.width → BitVec sel.width) :
    ∃ t, s.finish ((s.ownReg sel).map fun x => s.setReg sel (f x)) = .next t ∧ t.res = s.res ∧
      t.getReg sel = some (f x) ∧ OnlyReg sel s t :=
  ⟨_, State.finish_ownReg ha hx _, by simp, by simp, onlyReg_setReg s sel (f x)⟩

/-- Settles O27: the register is `fwdStep` of what it was, which `toNat_fwdStep` writes out. -/
theorem lfsrStepFwdShiftsInTheFeedback : Obligations.LfsrStepFwdShiftsInTheFeedback := by
  intro sel s x ha hx
  obtain ⟨t, ht, hres, hreg, honly⟩ := State.finish_stepReg ha hx (fwdStep (selTaps s.cfg sel))
  exact ⟨t, _, ht, hreg, toNat_fwdStep _ x, hres, honly⟩

theorem regWidth_pos (sel : Reg) : 0 < sel.width := by
  cases sel <;> decide

/-- Settles O28: the register is `bwdStep` of what it was, which `toNat_bwdStep` writes out. -/
theorem lfsrStepBwdRecoversThePredecessor : Obligations.LfsrStepBwdRecoversThePredecessor := by
  intro sel s x ha hx
  obtain ⟨t, ht, hres, hreg, honly⟩ := State.finish_stepReg ha hx (bwdStep (selTaps s.cfg sel))
  exact ⟨t, _, ht, hreg, toNat_bwdStep _ x (regWidth_pos sel), hres, honly⟩

theorem toNat_lowByte {w : Nat} (x : BitVec w) : (lowByte x).toNat = x.toNat % 256 :=
  BitVec.toNat_setWidth 8 x

/-- Settles O29: the byte is taken from the register before its steps, and fits RES. -/
theorem lfsrNextByteReturnsTheLowByte : Obligations.LfsrNextByteReturnsTheLowByte := by
  intro sel s x ha hx
  refine ⟨_, State.finish_ownReg ha hx _, ?_, ?_, (onlyReg_setReg s sel _).setRes (lowByte x)⟩
  · rw [State.complete_res, State.setRes_res, BitVec.toNat_setWidth, toNat_lowByte]
    omega
  · rw [State.complete_getReg, State.setRes_getReg, State.getReg_setReg_self]
    rfl

/-- Settles O30: eight backward steps are one step of the register by `prevByteState`. -/
theorem lfsrPrevByteStepsBackEightTimes : Obligations.LfsrPrevByteStepsBackEightTimes :=
  fun sel s _ ha hx => State.finish_stepReg ha hx (prevByteState (selTaps s.cfg sel))

/-! ## The other two commands -/

theorem exec_lfsrInit_of_ok {seed : Imm} (ha : s.active = false)
    (ht : tapsWellFormed (selTaps s.cfg sel) = true) (hs : seedInvalid sel.width seed = false) :
    exec (.lfsrInit sel seed) s = .next (s.setReg sel (seed.setWidth sel.width)).complete := by
  simp [exec, execLfsrInit, ha, ht, hs]

/-- Settles O26: the checks pass, and a seed in range fits the register. -/
theorem lfsrInitLoadsTheSeed : Obligations.LfsrInitLoadsTheSeed := by
  intro sel seed s ha ht hne hle
  refine ⟨_, seed.setWidth sel.width, exec_lfsrInit_of_ok ha ht (seedInvalid_eq_false_iff.2 ⟨hne, hle⟩),
    by simp, ?_, by simp, onlyReg_setReg s sel _⟩
  have := Nat.two_pow_pos sel.width
  rw [BitVec.toNat_setWidth, Nat.mod_eq_of_lt (by omega)]

theorem regWidth_le (sel : Reg) : sel.width ≤ 32 := by
  cases sel <;> decide

theorem exec_lfsrRead_of_some (hx : s.getReg sel = some x) :
    exec (.lfsrRead sel) s = .next (s.setRes x).complete := by
  simp [exec, execLfsrRead, State.readReg_of_some hx]

/-- Settles O31: RES is as wide as the wider register. -/
theorem lfsrReadReturnsTheRegister : Obligations.LfsrReadReturnsTheRegister := by
  intro sel s x hx
  refine ⟨_, exec_lfsrRead_of_some hx, ?_, onlyRes_setRes s x⟩
  rw [State.complete_res, State.setRes_res, BitVec.toNat_setWidth_of_le (regWidth_le sel)]

/-! ## Draws and undos -/

/-- Outside a session, under the configuration `c`, the register holds `x`. -/
structure IdleReg (c : Config) (sel : Reg) (x : BitVec sel.width) (s : State) : Prop where
  cfg : s.cfg = c
  idle : s.active = false
  reg : s.getReg sel = some x

theorem OnlyReg.idleReg (h : OnlyReg sel s t) (ha : s.active = false) (hx : t.getReg sel = some x) :
    IdleReg s.cfg sel x t := ⟨h.cfg, h.active.trans ha, hx⟩

theorem IdleReg.exec_lfsrNextByte {c : Config} (h : IdleReg c sel x s) :
    ∃ t, exec (.lfsrNextByte sel) s = .next t ∧ t.res.toNat = x.toNat % 256 ∧
      IdleReg c sel (nextByteState (selTaps c sel) x) t := by
  obtain ⟨rfl, ha, hx⟩ := h
  obtain ⟨t, ht, hres, hreg, honly⟩ := lfsrNextByteReturnsTheLowByte sel s x ha hx
  exact ⟨t, ht, hres, honly.idleReg ha hreg⟩

theorem IdleReg.exec_lfsrPrevByte {c : Config} (h : IdleReg c sel x s) :
    ∃ t, exec (.lfsrPrevByte sel) s = .next t ∧ t.res = s.res ∧
      IdleReg c sel (prevByteState (selTaps c sel) x) t := by
  obtain ⟨rfl, ha, hx⟩ := h
  obtain ⟨t, ht, hres, hreg, honly⟩ := lfsrPrevByteStepsBackEightTimes sel s x ha hx
  exact ⟨t, ht, hres, honly.idleReg ha hreg⟩

/-- Settles O37: eight steps back undo eight steps forward, and the undo leaves RES. -/
theorem byteUndoRestoresTheRegister : Obligations.ByteUndoRestoresTheRegister := by
  intro sel s x ha hx htaps
  obtain ⟨t, ht, hbyte, hidle⟩ := IdleReg.exec_lfsrNextByte ⟨rfl, ha, hx⟩
  obtain ⟨u, hu, hres, hback⟩ := hidle.exec_lfsrPrevByte
  refine ⟨t, u, ht, hu, hback.reg.trans ?_, by rw [hres, hbyte]⟩
  exact congrArg some (bwdSteps_fwdSteps htaps 8 x)

/-! ## Runs (R119) -/

theorem runCommands_cons {i : Instr} (h : exec i s = .next t) (is : List Instr) :
    runCommands (i :: is) s = (runCommands is t).map fun p => (t.res :: p.1, p.2) := by
  simp [runCommands, h]

theorem exec_next (i : Instr) (s : State) : ∃ t, exec i s = .next t :=
  (exec_eq_finish i s).imp' _ fun _ hr => hr

/-- A run after a run. -/
theorem runCommands_append {is js : List Instr} {u : State} {rs qs : List (BitVec 32)}
    (hi : runCommands is s = some (rs, t)) (hj : runCommands js t = some (qs, u)) :
    runCommands (is ++ js) s = some (rs ++ qs, u) := by
  induction is generalizing s rs with
  | nil =>
    cases hi
    exact hj
  | cons i is ih =>
    obtain ⟨v, hv⟩ := exec_next i s
    rw [runCommands_cons hv] at hi
    obtain ⟨⟨ps, t'⟩, hp, heq⟩ := Option.map_eq_some_iff.1 hi
    cases heq
    rw [List.cons_append, runCommands_cons hv, ih hp]
    rfl

/-- A command that steps an idle register by `f`, issued `n` times. -/
theorem IdleReg.run_replicate {c : Config} {i : Instr} {f : BitVec sel.width → BitVec sel.width}
    (hstep : ∀ {x s}, IdleReg c sel x s → ∃ t, exec i s = .next t ∧ IdleReg c sel (f x) t) (n : Nat)
    (h : IdleReg c sel x s) :
    ∃ rs t, runCommands (List.replicate n i) s = some (rs, t) ∧ IdleReg c sel (f^[n] x) t := by
  induction n generalizing s x with
  | zero => exact ⟨[], s, rfl, h⟩
  | succ n ih =>
    obtain ⟨t, ht, hidle⟩ := hstep h
    obtain ⟨rs, u, hrun, hu⟩ := ih hidle
    refine ⟨t.res :: rs, u, ?_, hu⟩
    rw [List.replicate_succ, runCommands_cons ht, hrun]
    rfl

/-- `n` draws are `8n` steps forward. -/
theorem IdleReg.run_lfsrNextByte {c : Config} (h : IdleReg c sel x s) (n : Nat) :
    ∃ rs t, runCommands (List.replicate n (.lfsrNextByte sel)) s = some (rs, t) ∧
      IdleReg c sel (fwdSteps (selTaps c sel) (8 * n) x) t := by
  rw [fwdSteps, Function.iterate_mul]
  exact h.run_replicate (fun h => h.exec_lfsrNextByte.imp fun _ ⟨ht, _, hidle⟩ => ⟨ht, hidle⟩) n

/-- `n` undos are `8n` steps back. -/
theorem IdleReg.run_lfsrPrevByte {c : Config} (h : IdleReg c sel x s) (n : Nat) :
    ∃ rs t, runCommands (List.replicate n (.lfsrPrevByte sel)) s = some (rs, t) ∧
      IdleReg c sel (bwdSteps (selTaps c sel) (8 * n) x) t := by
  rw [bwdSteps, Function.iterate_mul]
  exact h.run_replicate (fun h => h.exec_lfsrPrevByte.imp fun _ ⟨ht, _, hidle⟩ => ⟨ht, hidle⟩) n

/-- Settles O39: the draws go `8n` steps forward, and the undos `8k` of these or more back. -/
theorem registerOffsetAfterDrawsAndUndos : Obligations.RegisterOffsetAfterDrawsAndUndos := by
  intro sel s seed n k ha hx htaps
  obtain ⟨rs, t, hdraws, hdrawn⟩ := IdleReg.run_lfsrNextByte ⟨rfl, ha, hx⟩ n
  obtain ⟨qs, u, hundos, hundone⟩ := hdrawn.run_lfsrPrevByte k
  refine ⟨rs ++ qs, u, runCommands_append hdraws hundos, hundone.reg.trans ?_⟩
  split_ifs with h
  · rw [bwdSteps_fwdSteps_of_le htaps (by omega), Nat.mul_sub]
  · rw [bwdSteps_fwdSteps_of_ge htaps (by omega), Nat.mul_sub]

end Sys2Proof.Machine

/-! # Session (41_sbox_session): the key split, the drawn index, and one step of each phase (R132 to R141) -/

namespace Sys2Proof.Machine

/-! ## The key split (R132 to R134) -/

theorem toNat_seed17 (key : Imm) : (seed17 key).toNat = (1 <<< 16) ||| (key.toNat % 2 ^ 16) := by
  rw [seed17, BitVec.toNat_append, BitVec.extractLsb'_toNat, Nat.shiftRight_zero]
  rfl

theorem toNat_seed32 (c : Config) (key : Imm) :
    (seed32 c key).toNat = (c.prefix32.toNat <<< 24) ||| (key.toNat >>> 16) := by
  have hkey := key.isLt
  rw [seed32, BitVec.toNat_append, BitVec.extractLsb'_toNat, Nat.shiftRight_eq_div_pow,
    Nat.mod_eq_of_lt (by omega)]

/-- The two parts of SEED17 share no bit, so they add up. -/
theorem toNat_seed17_eq_add (key : Imm) : (seed17 key).toNat = 2 ^ 16 + key.toNat % 2 ^ 16 := by
  rw [toNat_seed17, ← Nat.shiftLeft_add_eq_or_of_lt (Nat.mod_lt _ (by decide)), Nat.one_shiftLeft]

/-- The same of SEED32. -/
theorem toNat_seed32_eq_add (c : Config) (key : Imm) :
    (seed32 c key).toNat = c.prefix32.toNat * 2 ^ 24 + key.toNat / 2 ^ 16 := by
  have hkey := key.isLt
  have hlow : key.toNat >>> 16 < 2 ^ 24 := by
    rw [Nat.shiftRight_eq_div_pow]
    omega
  rw [toNat_seed32, ← Nat.shiftLeft_add_eq_or_of_lt hlow, Nat.shiftLeft_eq, Nat.shiftRight_eq_div_pow]

theorem seed17_ne_zero (key : Imm) : seed17 key ≠ 0 := by
  intro h
  have hsum := toNat_seed17_eq_add key
  simp only [h, BitVec.ofNat_eq_ofNat, BitVec.toNat_ofNat] at hsum
  omega

/-- SEED32 is 0 exactly when both of its parts are (R133, R135). -/
theorem seed32_eq_zero_iff {c : Config} {key : Imm} :
    seed32 c key = 0 ↔ c.prefix32 = 0 ∧ key.toNat < 2 ^ 16 := by
  simp only [← BitVec.toNat_inj, toNat_seed32_eq_add, BitVec.ofNat_eq_ofNat, BitVec.toNat_ofNat]
  omega

/-- Settles O41: the parts of SEED17 add up to at least 2^16, and a nonzero prefix is a nonzero part. -/
theorem keySplitsIntoTheSeeds : Obligations.KeySplitsIntoTheSeeds := by
  intro c key
  have hsum := toNat_seed17_eq_add key
  exact ⟨toNat_seed17 key, by omega, by omega, toNat_seed32 c key,
    fun hp h => hp (seed32_eq_zero_iff.1 h).1⟩

/-- Settles O42: the low parts of the seeds are the quotient and the remainder of the key by 2^16. -/
theorem seedsGiveTheKeyBack : Obligations.SeedsGiveTheKeyBack := by
  intro c key
  have hkey := key.isLt
  rw [toNat_seed17_eq_add, toNat_seed32_eq_add,
    ← Nat.shiftLeft_add_eq_or_of_lt (Nat.mod_lt _ (by decide)), Nat.shiftLeft_eq]
  omega

/-! ## The draw and its index (R136 to R138) -/

theorem Regs.toNat_drawByte (r : Regs) :
    r.drawByte.toNat = (lowByte r.r17).toNat ^^^ (lowByte r.r32).toNat :=
  BitVec.toNat_xor _ _

/-- For a modulus of at most 256 the residue fits a byte. -/
theorem toNat_shuffleIndex (d : Byte) {i : Nat} (hi : i ≤ 255) :
    (shuffleIndex d i).toNat = d.toNat % (i + 1) := by
  have hlt := Nat.mod_lt d.toNat (show 0 < i + 1 by omega)
  rw [shuffleIndex, BitVec.toNat_ofNat, Nat.mod_eq_of_lt (by omega)]

/-- Counting bytes is counting the numbers below 256. -/
theorem countP_addresses (p : Nat → Bool) :
    addresses.countP (fun x => p x.toNat) = Nat.count (fun k => p k) 256 := by
  rw [addresses, List.countP_map, Nat.count]
  refine List.countP_congr fun k hk => ?_
  rw [Function.comp_apply, BitVec.toNat_ofNat, Nat.mod_eq_of_lt (List.mem_range.1 hk), decide_eq_true_iff]

/-- Settles O44: the bytes with the drawn index `r` are the numbers below 256 congruent to `r`. -/
theorem shuffleIndexBias : Obligations.ShuffleIndexBias := by
  intro i r hi hr
  have hmod : r % (i + 1) = r := Nat.mod_eq_of_lt (by omega)
  have hcount := Nat.count_modEq_card 256 (show 0 < i + 1 by omega) r
  simp only [toNat_shuffleIndex _ hi]
  rw [countP_addresses (fun k => k % (i + 1) == r)]
  simpa [Nat.ModEq, hmod] using hcount

/-! ## One step of the shuffle and of the default nonce pass (R137, R140) -/

/-- The entry at `i` first, as R137 and R140 name the two; where `i = j` both are the same entry. -/
theorem Memory.read_swap_left_first (m : Memory) (i j b : Byte) :
    Memory.read (Memory.swap m i j) b =
      if b = i then Memory.read m j else if b = j then Memory.read m i else Memory.read m b := by
  rw [Memory.read_swap]
  split_ifs with hj hi
  · rw [← hi, hj]
  all_goals rfl

/-- The recursion of `shuffleFrom`, unrolled: the steps for `n`, `n - 1`, ..., 1 (R137). -/
theorem shuffleFrom_eq_foldl (c : Config) (n : Nat) (b : Build) :
    shuffleFrom c n b = ((List.range n).map (n - ·)).foldl (fun b i => shuffleStep c i b) b := by
  induction n generalizing b with
  | zero => rfl
  | succ n ih =>
    rw [shuffleFrom, ih, List.range_succ_eq_map, List.map_cons, List.map_map, List.foldl_cons]
    simp [Function.comp_def]

/-- Settles O43: the step is a swap with the drawn index, and the recursion unrolls to the list of steps. -/
theorem shuffleSwapsWithTheDrawnIndex : Obligations.ShuffleSwapsWithTheDrawnIndex := by
  refine ⟨fun c i b _ hi => ⟨shuffleIndex b.regs.drawByte i, ?_, shuffleIndex_le _ i, fun x => ?_, rfl⟩,
    fun c b => shuffleFrom_eq_foldl c 255 b⟩
  · rw [toNat_shuffleIndex _ hi, Regs.toNat_drawByte]
  · have hx : x = BitVec.ofNat 8 i ↔ x.toNat = i := by
      rw [← BitVec.toNat_inj, BitVec.toNat_ofNat, Nat.mod_eq_of_lt (by omega)]
    rw [shuffleStep_fwd, Memory.read_swap_left_first]
    simp only [hx]

theorem toNat_defaultMixStep_fst (c : Config) (nonce : Memory) (j i : Byte) (b : Build) :
    (defaultMixStep c nonce (j, b) i).1.toNat =
      (j.toNat + (Memory.read b.fwd i).toNat + (Memory.read nonce i).toNat +
        b.regs.drawByte.toNat) % 256 := by
  simp [defaultMixStep]

/-- Settles O45: an iteration is a swap with the new accumulator, and the pass visits `addresses`. -/
theorem defaultNoncePassStep : Obligations.DefaultNoncePassStep := by
  refine ⟨fun c nonce j i b => ⟨_, rfl, ?_, fun x => ?_, rfl⟩, fun c nonce b hc => ?_⟩
  · rw [toNat_defaultMixStep_fst, Regs.toNat_drawByte]
  · rw [defaultMixStep_fwd, Memory.read_swap_left_first]
  · rw [nonceMix, hc]
    rfl

/-- Settles O46: a pass permutes by swaps, and draws NONCE_DRAWS times from each register. -/
theorem noncePassKeepsItsContract : Obligations.NoncePassKeepsItsContract :=
  fun c nonce b => ⟨permutation_nonceMix c nonce, nonceMix_regs c nonce b⟩

/-- Settles O47: every entry of INV is written exactly once. -/
theorem rebuiltInverseIsExact : Obligations.RebuiltInverseIsExact :=
  fun _ h => inverse_rebuildInv h

end Sys2Proof.Machine

/-! # Session (41_sbox_session): NONCE_WR, BEGIN_SESSION and END_SESSION (R131, R135, R143) -/

namespace Sys2Proof.Machine

variable {s : State}

/-- Settles O40: NONCE_WR has no check, and its one write is a byte of NONCE. -/
theorem nonceWrWritesOneByte : Obligations.NonceWrWritesOneByte := by
  intro idx val s
  refine ⟨_, rfl, ?_, fun a ha => ?_, fun a => ⟨rfl, rfl⟩, fun sel => ?_, rfl, rfl, rfl, rfl, rfl, rfl⟩
  · simp [State.memRead_nonces]
  · simp [State.memRead_nonces, ha]
  · cases sel <;> rfl

theorem exec_beginSession_of_ok {key : Imm} (ha : s.active = false)
    (ht17 : tapsWellFormed s.cfg.taps17 = true) (ht32 : tapsWellFormed s.cfg.taps32 = true)
    (h32 : seed32 s.cfg key ≠ 0) :
    exec (.beginSession key) s = .next (s.putSession (buildSession s.cfg s.nonce key)).complete := by
  have h17 := seed17_ne_zero key
  simp only [exec, execBeginSession, ha, ht17, ht32, beq_false_of_ne h17, beq_false_of_ne h32,
    Bool.not_true, Bool.or_false, Bool.false_eq_true, if_false, State.finish_ok]

/-- F of a session BEGIN_SESSION builds: the identity, shuffled and nonce-mixed (R135). -/
theorem buildSession_fwd (c : Config) (nonce : Memory) (key : Imm) :
    (buildSession c nonce key).tables.fwd =
      (nonceMix c nonce (shuffleFrom c 255 ⟨⟨seed17 key, seed32 c key⟩, Memory.identity⟩)).fwd := by
  simp only [buildSession, sessionSeeds]

/-- Settles O48: the checks pass, the session built is written whole, and no other element is. -/
theorem beginSessionStartsASession : Obligations.BeginSessionStartsASession := by
  intro key s ha ht17 ht32 hseed
  have h32 : seed32 s.cfg key ≠ 0 := fun h => by
    obtain ⟨hp, hk⟩ := seed32_eq_zero_iff.1 h
    exact hseed.elim (fun h => h hp) (by omega)
  have hregs := buildSession_regs s.cfg s.nonce key
  refine ⟨_, (buildSession s.cfg s.nonce key).tables, exec_beginSession_of_ok ha ht17 ht32 h32, ?_, ?_, rfl,
    inverse_buildSession _ _ _, permutation_buildSession _ _ _, buildSession_fwd _ _ _,
    fun a => rfl, rfl, rfl, rfl, rfl, rfl⟩
  · rw [State.complete_r17, State.putSession_r17, hregs]
    rfl
  · rw [State.complete_r32, State.putSession_r32, hregs]
    rfl

theorem exec_endSession_of_active (ha : s.active = true) :
    exec .endSession s =
      .next (State.complete { s with tables := none, r17 := none, r32 := none }) := by
  obtain ⟨tb, htb⟩ := State.active_eq_true.1 ha
  rw [exec, execEndSession, State.sessionTables_of_some htb, except_map_ok, State.finish_ok]

/-- Settles O49: in a session the one check passes, and what it owned is cleared. -/
theorem endSessionInvalidatesEverything : Obligations.EndSessionInvalidatesEverything :=
  fun _ ha => ⟨_, exec_endSession_of_active ha, rfl, fun sel => by cases sel <;> rfl,
    fun _ => ⟨rfl, rfl, rfl⟩, rfl, rfl, rfl, rfl, rfl⟩

end Sys2Proof.Machine

/-! # Symbols (42_sbox_symbol): the update of the tables (R161, R167, R171, R172) -/

namespace Sys2Proof.Machine

variable {t : Tables}

/-- F has a left inverse and a right inverse, so it takes every byte value once (R25). -/
theorem Tables.Inverse.permutation (h : t.Inverse) : Memory.Permutation t.fwd := by
  obtain ⟨hl, hr⟩ := Tables.inverse_iff.1 h
  exact Memory.permutation_iff_bijective.2 ⟨hl.injective, hr.surjective⟩

theorem Tables.Inverse.read_fwd_inj (h : t.Inverse) {x y : Byte} :
    Memory.read t.fwd x = Memory.read t.fwd y ↔ x = y :=
  (Tables.inverse_iff.1 h).1.injective.eq_iff

/-- Settles O54: the update is one transposition, applied to F and to INV alike. -/
theorem updateKeepsTheTablesInverse : Obligations.UpdateKeepsTheTablesInverse := fun _ v i h =>
  have hu := Tables.inverse_update h v i
  ⟨hu, hu.permutation⟩

theorem Tables.read_update_fwd_self (t : Tables) (v i : Byte) :
    Memory.read (t.update v i).fwd v = Memory.read t.fwd i := by
  rw [Tables.read_update_fwd_eq_comp, Function.comp_apply, Equiv.swap_apply_left]

/-- The place of F[v] is the drawn index, from the update on. -/
theorem Tables.read_update_inv_of_place {v : Byte} (h : t.Inverse) {y : Byte}
    (hy : Memory.read t.inv y = v) (i : Byte) : Memory.read (t.update v i).inv y = i := by
  rw [Tables.read_update_inv_eq_comp h, Function.comp_apply, hy, Equiv.swap_apply_left]

/-- An update with the drawn index `v` is the transposition of `v` with itself (R171). -/
theorem Tables.read_update_self (h : t.Inverse) (v : Byte) :
    Memory.read (t.update v v).fwd = Memory.read t.fwd ∧
      Memory.read (t.update v v).inv = Memory.read t.inv := by
  rw [Tables.read_update_fwd_eq_comp, Tables.read_update_inv_eq_comp h, Equiv.swap_self]
  exact ⟨rfl, rfl⟩

/-- F[v] becomes F[i], and F is injective: it is kept exactly when the drawn index is `v` (R171). -/
theorem Tables.read_update_fwd_self_eq_iff (h : t.Inverse) {v i : Byte} :
    Memory.read (t.update v i).fwd v = Memory.read t.fwd v ↔ i = v := by
  rw [Tables.read_update_fwd_self, h.read_fwd_inj]

/-- Settles O58: an update that changes anything changes `F[v]`; the other clauses read its entries. -/
theorem updateFixedPoint : Obligations.UpdateFixedPoint := by
  intro t v i h
  refine ⟨⟨fun ⟨hfwd, _⟩ => (Tables.read_update_fwd_self_eq_iff h).1 (hfwd v), ?_⟩, fun hi => ?_⟩
  · rintro rfl
    obtain ⟨hfwd, hinv⟩ := Tables.read_update_self h i
    exact ⟨congrFun hfwd, congrFun hinv⟩
  · refine ⟨mt (Tables.read_update_fwd_self_eq_iff h).1 hi, Tables.read_update_fwd_self t v i, by simp,
      by simp, ?_, fun x hv hx => by simp [hv, hx], fun y hv hy => by simp [hv, hy]⟩
    rw [Tables.read_update_inv, if_neg (mt h.read_fwd_inj.1 hi), if_pos rfl]

end Sys2Proof.Machine

/-! # Symbols (42_sbox_symbol): the five commands (R160 to R166) -/

namespace Sys2Proof.Machine

variable {s t : State} {x : Session}

/-! ## The session a state holds -/

@[simp] theorem State.session_putSession (s : State) (x : Session) : (s.putSession x).session = .ok x := rfl

theorem State.active_of_session (h : s.session = .ok x) : s.active = true :=
  State.active_of_tables (State.session_eq_ok_iff.1 h).1

theorem State.memRead_fwd_of_session (h : s.session = .ok x) (a : Byte) :
    s.memRead .fwd a = some (Memory.read x.tables.fwd a) := by
  simp [State.memRead, (State.session_eq_ok_iff.1 h).1]

theorem State.memRead_invs_of_session (h : s.session = .ok x) (a : Byte) :
    s.memRead .invs a = some (Memory.read x.tables.inv a) := by
  simp [State.memRead, (State.session_eq_ok_iff.1 h).1]

/-! ## What each command does in a session -/

/-- The check of the session passes, and the command's writes stand (R160). -/
theorem State.finish_session (h : s.session = .ok x) (f : Session → State) :
    s.finish (s.session.map f) = .next (f x).complete := by
  rw [h, except_map_ok, State.finish_ok]

theorem exec_encryptSym_of_session (h : s.session = .ok x) (v : Byte) :
    exec (.encryptSym v) s =
      .next ((s.putSession (x.update s.cfg v)).setRes (Memory.read x.tables.fwd v)).complete :=
  State.finish_session h _

theorem exec_decryptSym_of_session (h : s.session = .ok x) (c : Byte) :
    exec (.decryptSym c) s =
      .next ((s.putSession (x.update s.cfg (Memory.read x.tables.inv c))).setRes
        (Memory.read x.tables.inv c)).complete :=
  State.finish_session h _

theorem exec_update_of_session (h : s.session = .ok x) (v : Byte) :
    exec (.update v) s = .next (s.putSession (x.update s.cfg v)).complete :=
  State.finish_session h _

theorem exec_tblRdFwd_of_some {tb : Tables} (h : s.tables = some tb) (idx : Byte) :
    exec (.tblRdFwd idx) s = .next (s.setRes (Memory.read tb.fwd idx)).complete := by
  simp [exec, execTblRdFwd, State.sessionTables_of_some h]

theorem exec_tblRdInv_of_some {tb : Tables} (h : s.tables = some tb) (idx : Byte) :
    exec (.tblRdInv idx) s = .next (s.setRes (Memory.read tb.inv idx)).complete := by
  simp [exec, execTblRdInv, State.sessionTables_of_some h]

/-- Settles O53: either read passes its one check and writes RES. -/
theorem tableReadsReturnTheEntry : Obligations.TableReadsReturnTheEntry := fun idx s _ ht =>
  ⟨⟨_, exec_tblRdFwd_of_some ht idx, rfl, onlyRes_setRes s _⟩,
    ⟨_, exec_tblRdInv_of_some ht idx, rfl, onlyRes_setRes s _⟩⟩

/-! ## Frames -/

theorem onlySession_putSession (ha : s.active = true) (x : Session) :
    OnlySession s (s.putSession x).complete where
  cfg := rfl
  active := ha.symm
  nonce _ := rfl
  port := rfl
  ok := ⟨rfl, rfl⟩

/-- The frame says nothing of RES. -/
theorem OnlySession.setRes (h : OnlySession s t.complete) {n : Nat} (v : BitVec n) :
    OnlySession s (t.setRes v).complete where
  cfg := h.cfg
  active := h.active
  nonce := h.nonce
  port := h.port
  ok := h.ok

/-! ## The update in the state (R161) -/

/-- A state that holds a session after its update, element by element. -/
theorem State.reads_of_session_update {c : Config} {v : Byte} (h : t.session = .ok (x.update c v)) :
    (∀ y, t.memRead .fwd y =
      some (if y = x.regs.drawByte then Memory.read x.tables.fwd v
        else if y = v then Memory.read x.tables.fwd x.regs.drawByte else Memory.read x.tables.fwd y)) ∧
    (∀ y, t.memRead .invs y =
      some (if y = Memory.read x.tables.fwd v then x.regs.drawByte
        else if y = Memory.read x.tables.fwd x.regs.drawByte then v else Memory.read x.tables.inv y)) ∧
    t.r17 = some (fwdSteps c.taps17 8 x.regs.r17) ∧ t.r32 = some (fwdSteps c.taps32 8 x.regs.r32) := by
  obtain ⟨-, h17, h32⟩ := State.session_eq_ok_iff.1 h
  refine ⟨fun y => ?_, fun y => ?_, h17, h32⟩
  · rw [State.memRead_fwd_of_session h, Session.update_tables, Tables.read_update_fwd]
  · rw [State.memRead_invs_of_session h, Session.update_tables, Tables.read_update_inv]

/-- Settles O50: the result is read from the tables before the update with the symbol. -/
theorem encryptSymLooksUpThenUpdates : Obligations.EncryptSymLooksUpThenUpdates := by
  intro v s a b tb ha hb ht
  have hx := State.session_of_some ht ha hb
  obtain ⟨hfwd, hinv, h17, h32⟩ := State.reads_of_session_update (State.session_putSession s _)
  exact ⟨_, exec_encryptSym_of_session hx v, rfl, hfwd, hinv, h17, h32,
    (onlySession_putSession (State.active_of_tables ht) _).setRes _⟩

/-- Settles O51: the result is INV's entry, and the update is that of O50 with it. -/
theorem decryptSymUpdatesWithThePlaintext : Obligations.DecryptSymUpdatesWithThePlaintext := by
  intro c s a b tb ha hb ht
  have hx := State.session_of_some ht ha hb
  obtain ⟨hfwd, hinv, h17, h32⟩ := State.reads_of_session_update (State.session_putSession s _)
  exact ⟨_, _, exec_decryptSym_of_session hx c, rfl, rfl, hfwd, hinv, h17, h32,
    (onlySession_putSession (State.active_of_tables ht) _).setRes _⟩

/-- Settles O52: the two commands put the same session, and one sets RES besides. -/
theorem updateIsEncryptWithoutTheResult : Obligations.UpdateIsEncryptWithoutTheResult := by
  intro v s a b tb ha hb ht
  have hx := State.session_of_some ht ha hb
  exact ⟨_, _, exec_update_of_session hx v, exec_encryptSym_of_session hx v, rfl, rfl,
    onlySession_putSession (State.active_of_tables ht) _⟩

end Sys2Proof.Machine

/-! # Symbols (42_sbox_symbol): repeated symbols and runs in a session (R168 to R170, R173, R174) -/

namespace Sys2Proof.Machine

variable {s t : State} {c : Config} {x : Session} {key : Imm}

/-- Under the configuration `c`, the state holds the active session `x`. -/
structure InSession (c : Config) (x : Session) (s : State) : Prop where
  cfg : s.cfg = c
  session : s.session = .ok x

/-! ## A symbol command in a session (R161) -/

theorem InSession.exec_encryptSym (h : InSession c x s) (v : Byte) :
    ∃ t, exec (.encryptSym v) s = .next t ∧ t.res = (Memory.read x.tables.fwd v).setWidth 32 ∧
      InSession c (x.update c v) t := by
  obtain ⟨rfl, hx⟩ := h
  exact ⟨_, exec_encryptSym_of_session hx v, rfl, rfl, rfl⟩

theorem InSession.exec_decryptSym (h : InSession c x s) (y : Byte) :
    ∃ t, exec (.decryptSym y) s = .next t ∧ t.res = (Memory.read x.tables.inv y).setWidth 32 ∧
      InSession c (x.update c (Memory.read x.tables.inv y)) t := by
  obtain ⟨rfl, hx⟩ := h
  exact ⟨_, exec_decryptSym_of_session hx y, rfl, rfl, rfl⟩

theorem InSession.exec_update (h : InSession c x s) (v : Byte) :
    ∃ t, exec (.update v) s = .next t ∧ InSession c (x.update c v) t := by
  obtain ⟨rfl, hx⟩ := h
  exact ⟨_, exec_update_of_session hx v, rfl, rfl⟩

/-- A symbol command updates the session with some byte; each of them draws once. -/
theorem InSession.exec_symbol (h : InSession c x s) {i : Instr} (hi : isSymbolCommand i = true) :
    ∃ v t, exec i s = .next t ∧ InSession c (x.update c v) t := by
  cases i
  case encryptSym v =>
    obtain ⟨t, ht, -, hx⟩ := h.exec_encryptSym v
    exact ⟨v, t, ht, hx⟩
  case decryptSym y =>
    obtain ⟨t, ht, -, hx⟩ := h.exec_decryptSym y
    exact ⟨_, t, ht, hx⟩
  case update v => exact ⟨v, h.exec_update v⟩
  all_goals cases hi

/-! ## The same symbol, or the same byte, twice in a row (R173, R174) -/

/-- A byte in RES is that byte. -/
theorem setWidth_32_inj {x y : Byte} : x.setWidth 32 = y.setWidth 32 ↔ x = y := by
  refine ⟨fun h => ?_, congrArg _⟩
  simpa using congrArg (BitVec.setWidth 8) h

/-- Settles O59: the second encryption reads `F[i]` for the first draw `i`, and F is injective. -/
theorem repeatedPlaintextLeaksTheDraw : Obligations.RepeatedPlaintextLeaksTheDraw := by
  intro v s a b tb ha hb ht hinv
  have hs : InSession s.cfg ⟨⟨a, b⟩, tb⟩ s := ⟨rfl, State.session_of_some ht ha hb⟩
  obtain ⟨t, hfirst, hres, hx⟩ := hs.exec_encryptSym v
  obtain ⟨u, hsecond, hres', -⟩ := hx.exec_encryptSym v
  refine ⟨t, u, hfirst, hsecond, ?_⟩
  rw [hres, hres', setWidth_32_inj, eq_comm]
  exact Tables.read_update_fwd_self_eq_iff hinv

/-- Settles O60: the first decryption moves `v_p` to the draw, so the second returns the draw. -/
theorem repeatedCiphertextReturnsTheDraw : Obligations.RepeatedCiphertextReturnsTheDraw := by
  intro c s a b tb ha hb ht hinv
  have hs : InSession s.cfg ⟨⟨a, b⟩, tb⟩ s := ⟨rfl, State.session_of_some ht ha hb⟩
  obtain ⟨t, hfirst, hres, hx⟩ := hs.exec_decryptSym c
  obtain ⟨u, hsecond, hres', -⟩ := hx.exec_decryptSym c
  rw [Session.update_tables, Tables.read_update_inv_of_place hinv rfl] at hres'
  refine ⟨t, u, hfirst, hsecond, ?_, fun _ => hres'⟩
  rw [hres, hres', setWidth_32_inj]
  rfl

/-! ## A run in a session (R168, R169) -/

/-- Any other command but END_SESSION writes no element of an active session: those that write
a register or start a session need an idle block (R207). -/
theorem Writes.session {i : Instr} {u : State} (h : Writes s i u) (ha : s.active = true)
    (hi : isSymbolCommand i = false) (he : i ≠ .endSession) : u.session = s.session := by
  cases h with
  | endSession => exact absurd rfl he
  | encryptSym | decryptSym | update => cases hi
  | lfsrRead | nonceWr | tblRdFwd | tblRdInv => rfl
  | lfsrInit hidle | lfsrStepFwd hidle | lfsrStepBwd hidle | lfsrNextByte hidle | lfsrPrevByte hidle
  | beginSession hidle => simp [hidle] at ha

theorem InSession.exec_other (h : InSession c x s) {i : Instr} (hi : isSymbolCommand i = false)
    (he : i ≠ .endSession) : ∃ t, exec i s = .next t ∧ InSession c x t := by
  obtain ⟨rfl, hx⟩ := h
  obtain ⟨t, ht⟩ := exec_next i s
  refine ⟨t, ht, exec_cfg ht, ?_⟩
  rcases exec_writes ht with ⟨e, rfl⟩ | ⟨u, hu, rfl⟩
  · exact hx
  · exact (hu.session (State.active_of_session hx) hi he).trans hx

/-- The registers after a run are those before it after one draw a symbol command (R168). -/
theorem InSession.run {cmds : List Instr} (h : InSession c x s) (he : .endSession ∉ cmds) :
    ∃ rs u y, runCommands cmds s = some (rs, u) ∧ InSession c y u ∧
      y.regs = x.regs.advance c (cmds.countP isSymbolCommand) := by
  induction cmds generalizing s x with
  | nil => exact ⟨[], s, x, rfl, h, rfl⟩
  | cons i is ih =>
    obtain ⟨hi, his⟩ := List.ne_and_not_mem_of_not_mem_cons he
    cases hsym : isSymbolCommand i with
    | true =>
      obtain ⟨v, t, ht, hx⟩ := h.exec_symbol hsym
      obtain ⟨rs, u, y, hrun, hu, hregs⟩ := ih hx his
      refine ⟨t.res :: rs, u, y, by rw [runCommands_cons ht, hrun]; rfl, hu, ?_⟩
      rw [hregs, Session.update_regs, Regs.afterDraw_eq_advance, Regs.advance_add, Nat.add_comm,
        List.countP_cons_of_pos hsym]
    | false =>
      obtain ⟨t, ht, hx⟩ := h.exec_other hsym hi.symm
      obtain ⟨rs, u, y, hrun, hu, hregs⟩ := ih hx his
      refine ⟨t.res :: rs, u, y, by rw [runCommands_cons ht, hrun]; rfl, hu, ?_⟩
      rw [hregs, List.countP_cons_of_neg (by simp [hsym])]

/-- A BEGIN_SESSION that makes an idle block active has put the session it builds. -/
theorem inSession_of_beginSession (hs : s.active = false) (h : exec (.beginSession key) s = .next t)
    (ht : t.active = true) : InSession s.cfg (buildSession s.cfg s.nonce key) t := by
  rcases exec_writes h with ⟨e, rfl⟩ | ⟨u, hu, rfl⟩
  · simp [hs] at ht
  · cases hu
    exact ⟨rfl, rfl⟩

/-- R168: the draws of BEGIN_SESSION, then one for each symbol command. -/
theorem run_of_beginSession {cmds : List Instr} (hs : s.active = false)
    (h : exec (.beginSession key) s = .next t) (ht : t.active = true) (he : .endSession ∉ cmds) :
    ∃ rs u y, runCommands cmds t = some (rs, u) ∧ InSession s.cfg y u ∧
      y.regs = (sessionSeeds s.cfg key).advance s.cfg
        (initDraws s.cfg + cmds.countP isSymbolCommand) := by
  obtain ⟨rs, u, y, hrun, hu, hregs⟩ := (inSession_of_beginSession hs h ht).run he
  refine ⟨rs, u, y, hrun, hu, ?_⟩
  rw [hregs, buildSession_regs, Regs.advance_add]

/-- Settles O55: the registers of the session a run leaves, read in the state. -/
theorem sessionRegisterOffset : Obligations.SessionRegisterOffset := by
  intro key s a cmds hs hbegin ha he
  obtain ⟨rs, u, y, hrun, ⟨-, hy⟩, hregs⟩ := run_of_beginSession hs hbegin ha he
  obtain ⟨-, h17, h32⟩ := State.session_eq_ok_iff.1 hy
  rw [hregs] at h17 h32
  exact ⟨rs, u, hrun, State.active_of_session hy, h17, h32⟩

/-- Settles O56: both sessions have the registers that the seeds and the position fix. -/
theorem drawsDoNotDependOnData : Obligations.DrawsDoNotDependOnData := by
  intro key s s' a a' cmds cmds' hs hs' hcfg hbegin hbegin' ha ha' he he' hcount
  obtain ⟨rs, u, y, hrun, ⟨-, hy⟩, hregs⟩ := run_of_beginSession hs hbegin ha he
  obtain ⟨rs', u', y', hrun', ⟨-, hy'⟩, hregs'⟩ := run_of_beginSession hs' hbegin' ha' he'
  have hsame : y.regs = y'.regs := by rw [hregs, hregs', hcfg, hcount]
  exact ⟨rs, rs', u, u', y, y', hrun, hrun', hy, hy', congrArg Regs.drawByte hsame, hsame⟩

/-! ## Decryption undoes encryption (R170) -/

/-- BEGIN_SESSION sees of NONCE what it reads. -/
theorem buildSession_congr {nonce nonce' : Memory}
    (h : ∀ a, Memory.read nonce a = Memory.read nonce' a) (c : Config) (key : Imm) :
    buildSession c nonce key = buildSession c nonce' key := by
  have hdefault : defaultMixStep c nonce = defaultMixStep c nonce' := by
    funext jb i
    simp only [defaultMixStep, h]
  have hplatform : ∀ o17 o32, platformMixStep o17 o32 nonce = platformMixStep o17 o32 nonce' := by
    intro o17 o32
    funext jf i
    simp only [platformMixStep, h]
  simp only [buildSession, nonceMix, defaultMix, platformMix, hdefault, hplatform]

/-- Two blocks in the same session, one encrypting and one decrypting what the first returns: each step
finds `INV[F[v]] = v`, so both update with `v` and stay in the same session. -/
theorem InSession.run_encrypt_decrypt {s' : State} (h : InSession c x s) (h' : InSession c x s')
    (hinv : x.tables.Inverse) (msg : List Byte) :
    ∃ (cipher : List Byte) (u u' : State) (y : Session),
      runCommands (msg.map .encryptSym) s = some (cipher.map (BitVec.setWidth 32), u) ∧
        runCommands (cipher.map .decryptSym) s' = some (msg.map (BitVec.setWidth 32), u') ∧
        InSession c y u ∧ InSession c y u' := by
  induction msg generalizing s s' x with
  | nil => exact ⟨[], s, s', x, rfl, rfl, h, h'⟩
  | cons v msg ih =>
    obtain ⟨t, ht, hres, hx⟩ := h.exec_encryptSym v
    obtain ⟨t', ht', hres', hx'⟩ := h'.exec_decryptSym (Memory.read x.tables.fwd v)
    rw [hinv.1 v] at hres' hx'
    obtain ⟨cipher, u, u', y, hrun, hrun', hu, hu'⟩ := ih hx hx' (Tables.inverse_update hinv v _)
    refine ⟨Memory.read x.tables.fwd v :: cipher, u, u', y, ?_, ?_, hu, hu'⟩
    · rw [List.map_cons, runCommands_cons ht, hrun, hres]
      rfl
    · rw [List.map_cons, runCommands_cons ht', hrun', hres']
      rfl

/-- Settles O57: the two sessions are the same as they begin, and stay so. -/
theorem decryptionUndoesEncryption : Obligations.DecryptionUndoesEncryption := by
  intro key s s' a a' msg hs hs' hcfg hnonce hbegin hbegin' ha ha'
  have hbuild := buildSession_congr (fun y => Option.some.inj (hnonce y)) s.cfg key
  have hx := inSession_of_beginSession hs hbegin ha
  have hx' := inSession_of_beginSession hs' hbegin' ha'
  rw [← hcfg, ← hbuild] at hx'
  obtain ⟨cipher, u, u', y, hrun, hrun', ⟨-, hu⟩, ⟨-, hu'⟩⟩ :=
    hx.run_encrypt_decrypt hx' (inverse_buildSession _ _ _) msg
  obtain ⟨-, h17, h32⟩ := State.session_eq_ok_iff.1 hu
  obtain ⟨-, h17', h32'⟩ := State.session_eq_ok_iff.1 hu'
  refine ⟨cipher, u, u', hrun, hrun', h17.trans h17'.symm, h32.trans h32'.symm, fun a => ⟨?_, ?_⟩⟩
  · rw [State.memRead_fwd_of_session hu, State.memRead_fwd_of_session hu']
  · rw [State.memRead_invs_of_session hu, State.memRead_invs_of_session hu']

end Sys2Proof.Machine

/-! # Exceptions (60_exceptions): illegal words, the error codes, and what an error leaves unchanged (R200 to R202) -/

namespace Sys2Proof.Machine

variable {s t : State}

/-! ## The block never stops (R200, R209, R212, R241) -/

theorem accept_command_of_decode_error {w : Cmd} {x : Illegal} (hd : decode w = .error x) (s : State) :
    accept (.command w) s = .next (s.raise .illegalCmd) := by
  simp [accept, hd, execIllegal]

theorem accept_next (i : HostInput) (s : State) : ∃ t, accept i s = .next t := by
  cases i with
  | command w =>
    cases hd : decode w with
    | ok i => rw [accept_command_of_decode_ok hd]; exact exec_next i s
    | error x => exact ⟨_, accept_command_of_decode_error hd s⟩
  | read r => exact ⟨s, rfl⟩
  | reset => exact ⟨s.hardReset, rfl⟩

/-- Settles O16: a step waits on an empty port, and every input is accepted. -/
theorem everyStepAnswersANextState : Obligations.EveryStepAnswersANextState := by
  intro s
  cases hp : s.port with
  | nil =>
    obtain ⟨-, hwait, -⟩ := hostReadsAndWaitingChangeNothing
    exact ⟨s, hwait s hp⟩
  | cons i rest => rw [step_of_port_cons hp]; exact accept_next i _

/-- Settles O10: the word taken from the port is accepted as the error ILLEGAL_CMD. -/
theorem stepReportsIllegalWords : Obligations.StepReportsIllegalWords := by
  intro s w rest x hp hd
  rw [step_of_port_cons hp]
  exact ⟨_, accept_command_of_decode_error hd _, failed_raise _ _⟩

/-! ## The error report (R201, R202) -/

/-- Settles O21: a word that leaves an error has not completed: it raised it in the state before it. -/
theorem failingCommandsChangeOnlyStatus : Obligations.FailingCommandsChangeOnlyStatus := by
  intro w s t e h he
  rcases accept_command_cases h with ⟨x, rfl⟩ | ⟨i, u, -, rfl, -⟩
  · obtain rfl : x = e := Option.some.inj he
    exact failed_raise x s
  · cases he

/-- Settles O15: the table of codes, a row for success and one for each error. -/
theorem errorCodesAreAsTabled : Obligations.ErrorCodesAreAsTabled := by
  intro s
  simp only [State.errCode]
  cases s.err with
  | none => decide
  | some e => cases e <;> decide

end Sys2Proof.Machine

/-! # Exceptions (60_exceptions): which command raises which error, and the order of the checks (R201, R203) -/

namespace Sys2Proof.Machine

variable {s t : State} {e : Error}

/-! ## The errors of the shared checks (R100, R160, R206 to R208) -/

theorem State.readReg_error {q : Reg} (h : s.readReg q = .error e) : e = .regNotInit := by
  rcases s.readReg_cases q with ⟨-, hr⟩ | ⟨x, -, hr⟩ <;> rw [hr] at h <;> cases h
  rfl

theorem State.ownReg_error {q : Reg} (h : s.ownReg q = .error e) :
    e = .sessionAlreadyActive ∨ e = .regNotInit := by
  cases ha : s.active with
  | true => rw [State.ownReg_of_active ha] at h; cases h; exact .inl rfl
  | false => rw [State.ownReg_of_idle ha] at h; exact .inr (State.readReg_error h)

theorem State.sessionTables_error (h : s.sessionTables = .error e) : e = .sessionNotActive := by
  rcases s.sessionTables_cases with ⟨-, hr⟩ | ⟨tb, -, hr⟩ <;> rw [hr] at h <;> cases h
  rfl

/-- While ACTIVE = 1 the invariant has both registers valid (R160), so the draw itself raises no error. -/
theorem State.Inv.session_error (hs : s.Inv) (h : s.session = .error e) : e = .sessionNotActive := by
  rcases s.session_cases with ⟨-, hr⟩ | ⟨x, -, -, -, hr⟩ | ⟨ha, hv, -⟩
  · rw [hr] at h; cases h; rfl
  · rw [hr] at h; cases h
  · obtain ⟨h17, h32⟩ := hs.valid ha
    simp [h17, h32] at hv

/-- A command whose one check is `r` reports the error of that check. -/
theorem State.finish_map_err {α : Type} {r : Except Error α} {f : α → State}
    (h : s.finish (r.map f) = .next t) (he : t.err = some e) : r = .error e :=
  except_map_eq_error_iff.1 (State.finish_err h he)

/-! ## The errors of each command (R201) -/

theorem execLfsrInit_mayRaise {sel : Reg} {seed : Imm} (h : execLfsrInit sel seed s = .next t)
    (he : t.err = some e) : mayRaise e (.lfsrInit sel seed) = true := by
  have hr := State.finish_err h he
  split_ifs at hr <;> cases hr <;> rfl

theorem execBeginSession_mayRaise {key : Imm} (h : execBeginSession key s = .next t)
    (he : t.err = some e) : mayRaise e (.beginSession key) = true := by
  have hr := State.finish_err h he
  split_ifs at hr <;> cases hr <;> rfl

theorem mayRaise_of_ownReg {i : Instr} {sel : Reg} {f : BitVec sel.width → State}
    (hi : needsIdle i = true) (hc : checkedReg i = some sel)
    (h : s.finish ((s.ownReg sel).map f) = .next t) (he : t.err = some e) : mayRaise e i = true := by
  rcases State.ownReg_error (State.finish_map_err h he) with rfl | rfl
  · exact hi
  · rw [mayRaise, hc, Option.isSome_some]

theorem mayRaise_of_sessionTables {i : Instr} {f : Tables → State} (hi : needsSession i = true)
    (h : s.finish (s.sessionTables.map f) = .next t) (he : t.err = some e) : mayRaise e i = true := by
  obtain rfl := State.sessionTables_error (State.finish_map_err h he)
  exact hi

theorem mayRaise_of_session {i : Instr} {f : Session → State} (hs : s.Inv) (hi : needsSession i = true)
    (h : s.finish (s.session.map f) = .next t) (he : t.err = some e) : mayRaise e i = true := by
  obtain rfl := hs.session_error (State.finish_map_err h he)
  exact hi

/-- Settles O22: each command reports an error of its own checks, by the check it shares with others. -/
theorem commandsRaiseOnlyTheirErrors : Obligations.CommandsRaiseOnlyTheirErrors := by
  intro i s t e hs h he
  cases i with
  | lfsrInit sel seed => exact execLfsrInit_mayRaise h he
  | lfsrStepFwd sel | lfsrStepBwd sel | lfsrNextByte sel | lfsrPrevByte sel =>
    exact mayRaise_of_ownReg rfl rfl h he
  | lfsrRead sel => obtain rfl := State.readReg_error (State.finish_map_err h he); rfl
  | nonceWr idx val => cases h; cases he
  | beginSession key => exact execBeginSession_mayRaise h he
  | encryptSym v | decryptSym c | update v => exact mayRaise_of_session hs rfl h he
  | endSession | tblRdFwd idx | tblRdInv idx => exact mayRaise_of_sessionTables rfl h he

/-! ## The order of the checks (R203) -/

theorem exec_of_active {i : Instr} (hi : needsIdle i = true) (ha : s.active = true) :
    exec i s = .next (s.raise .sessionAlreadyActive) := by
  cases i with
  | lfsrInit sel seed => simp [exec, execLfsrInit, ha]
  | beginSession key => simp [exec, execBeginSession, ha]
  | lfsrStepFwd sel | lfsrStepBwd sel | lfsrNextByte sel | lfsrPrevByte sel =>
    simp [exec, execLfsrStepFwd, execLfsrStepBwd, execLfsrNextByte, execLfsrPrevByte,
      State.ownReg_of_active ha]
  | _ => cases hi

theorem exec_of_inactive {i : Instr} (hi : needsSession i = true) (ha : s.active = false) :
    exec i s = .next (s.raise .sessionNotActive) := by
  have ht : s.tables = none := State.active_eq_false.1 ha
  cases i with
  | endSession => simp [exec, execEndSession, State.sessionTables_of_none ht]
  | tblRdFwd idx => exact exec_tblRdFwd_of_none ht
  | tblRdInv idx => exact exec_tblRdInv_of_none ht
  | encryptSym v | decryptSym c | update v =>
    simp [exec, execEncryptSym, execDecryptSym, execUpdate, State.session_of_none ht]
  | _ => cases hi

theorem exec_of_uninitialised {i : Instr} {sel : Reg} (hc : checkedReg i = some sel)
    (ha : needsIdle i = true → s.active = false) (hx : s.getReg sel = none) :
    exec i s = .next (s.raise .regNotInit) := by
  cases i with
  | lfsrRead q => cases hc; exact exec_lfsrRead_of_none hx
  | lfsrStepFwd q | lfsrStepBwd q | lfsrNextByte q | lfsrPrevByte q =>
    cases hc
    simp [exec, execLfsrStepFwd, execLfsrStepBwd, execLfsrNextByte, execLfsrPrevByte,
      State.ownReg_of_idle (ha rfl), State.readReg_of_none hx]
  | _ => cases hc

theorem seedInvalid_eq_true_iff {w : Nat} {seed : Imm} :
    seedInvalid w seed = true ↔ seed = 0 ∨ 2 ^ w - 1 < seed.toNat := by
  simp [seedInvalid]

theorem exec_lfsrInit_err (sel : Reg) (seed : Imm) (ha : s.active = false) :
    ∃ t, exec (.lfsrInit sel seed) s = .next t ∧
      t.err = if tapsWellFormed (selTaps s.cfg sel) = false then some .invalidTaps
        else if seed = 0 ∨ 2 ^ sel.width - 1 < seed.toNat then some .invalidSeed else none := by
  simp only [← seedInvalid_eq_true_iff, exec, execLfsrInit, ha]
  cases tapsWellFormed (selTaps s.cfg sel) with
  | false => exact ⟨_, rfl, rfl⟩
  | true => cases seedInvalid sel.width seed <;> exact ⟨_, rfl, rfl⟩

/-- SEED17 is never 0 (R132), so the check of the seeds is that of SEED32. -/
theorem exec_beginSession_err (key : Imm) (ha : s.active = false) :
    ∃ t, exec (.beginSession key) s = .next t ∧
      t.err = if tapsWellFormed s.cfg.taps17 = false ∨ tapsWellFormed s.cfg.taps32 = false
        then some .invalidTaps
        else if s.cfg.prefix32 = 0 ∧ key.toNat < 2 ^ 16 then some .invalidSeed else none := by
  simp only [← seed32_eq_zero_iff, exec, execBeginSession, ha, beq_false_of_ne (seed17_ne_zero key)]
  by_cases ht : tapsWellFormed s.cfg.taps17 = false ∨ tapsWellFormed s.cfg.taps32 = false
  · simp [ht]
  · by_cases hs : seed32 s.cfg key = 0#32 <;> simp [ht, hs]

/-- Settles O23: the error of each check, by R203's order. -/
theorem errorPriority : Obligations.ErrorPriority :=
  ⟨fun _ s _ hd => ⟨_, accept_command_of_decode_error hd s, rfl⟩,
    fun _ _ hi ha => ⟨_, exec_of_active hi ha, rfl⟩,
    fun _ _ hi ha => ⟨_, exec_of_inactive hi ha, rfl⟩,
    fun sel seed _ ha => exec_lfsrInit_err sel seed ha,
    fun key _ ha => exec_beginSession_err key ha,
    fun _ _ _ hc ha hx => ⟨_, exec_of_uninitialised hc ha hx, rfl⟩⟩

end Sys2Proof.Machine

/-! # Reset (70_reset_and_hazards): a reset input from any state (R230) -/

namespace Sys2Proof.Machine

variable (s : State)

/-! ## A hard reset holds what the state right after reset holds (R34) -/

theorem State.hardReset_getReg (sel : Reg) : s.hardReset.getReg sel = State.reset.getReg sel := by
  cases sel <;> rfl

theorem State.hardReset_memRead (sp : Space) (a : Byte) :
    s.hardReset.memRead sp a = State.reset.memRead sp a := by
  cases sp <;> rfl

theorem State.hardReset_status : s.hardReset.status = State.reset.status := rfl

variable {s}

theorem step_of_port_cons_reset {rest : List HostInput} (hp : s.port = .reset :: rest) :
    step s = .next ({ s with port := rest } : State).hardReset :=
  step_of_port_cons hp

/-- Settles O12: the step is a hard reset, which keeps the configuration and whose registers, memories and
STATUS are those of the state right after reset (O13). -/
theorem resetInputSetsEveryElement : Obligations.ResetInputSetsEveryElement := by
  intro s rest hp
  obtain ⟨hreg, -, -, -, -, hstatus, hmem, -, -⟩ := resetStateIsAsStated
  refine ⟨_, step_of_port_cons_reset hp, State.hardReset_cfg _, fun sel => ?_, State.hardReset_v17 _,
    State.hardReset_v32 _, State.hardReset_active _, State.hardReset_res _, ?_, fun a => ?_⟩
  · rw [State.hardReset_getReg, hreg]
  · rw [State.hardReset_status, hstatus]
  · simpa only [State.hardReset_memRead] using hmem a

end Sys2Proof.Machine
